-- ==== Sys2Proof/Config.lean ====
section
/-! DEFINITION. The one implementation parameter: the accumulator width (R6). The spec fixes every result, so there is no
free value here. -/

namespace Sys2Proof

/-- `ACC_WIDTH`, written `A` in the rules: 128 (R6). The codec functions of `Machine/Codec.lean`, `Machine/Zigzag.lean` and
`Machine/Operands.lean` take the width as an argument, so that R149 (no response depends on it) can be stated. -/
abbrev Config.accWidth : Nat := 128

end Sys2Proof
end

