-- ==== Sys2Proof/Word.lean ====
section
/-! DEFINITION. The units that move over the block's interface: bytes, selectors, accumulator patterns, operands, requests,
window items, values and output transfers (R8, R10, R21 to R27, R44, R45, R66). -/

namespace Sys2Proof

/-- An 8-bit unit (R8). A byte sequence (R10) is a `List Byte`, index 0 first. -/
abbrev Byte := BitVec 8

/-- The 4-bit operation selector (R66). -/
abbrev Sel := BitVec 4

/-- An accumulator-width pattern (R6, R30, R32). -/
abbrev Acc := BitVec Config.accWidth

/-- The closed set of target widths `W = 16, 32, 64` (R5). -/
inductive Width where
  | w16 | w32 | w64
deriving DecidableEq, Repr

/-- The width in bits. -/
def Width.bits : Width → Nat
  | .w16 => 16
  | .w32 => 32
  | .w64 => 64

/-- The two directions of the dispatch (R66, field `DIR`). -/
inductive Dir where
  | encode | decode
deriving DecidableEq, Repr

/-- The two signednesses (R5; R66, field `SGN`). -/
inductive Sign where
  | unsigned | signed
deriving DecidableEq, Repr

/-- What an admitted selector names: one of the twelve entry points (R3, R68). -/
structure Operation where
  dir   : Dir
  width : Width
  sign  : Sign
deriving DecidableEq, Repr

/-- The two levels of the interface (R21): a whole request and its response in one transaction, or one byte per step. -/
inductive Level where
  | transaction | streaming
deriving DecidableEq, Repr

/-- The operand of a request: a value of exactly the width the selector names (R22), or a window (R23). -/
inductive Operand where
  /-- `VALUE_IN`, 16 bits. -/
  | value16 (v : BitVec 16)
  /-- `VALUE_IN`, 32 bits. -/
  | value32 (v : BitVec 32)
  /-- `VALUE_IN`, 64 bits. -/
  | value64 (v : BitVec 64)
  /-- `WINDOW`, handed over whole: the transaction level. -/
  | window (s : List Byte)
  /-- The window's bytes are offered one by one after acceptance: the streaming level. -/
  | offered
deriving DecidableEq, Repr

/-- A request as the host presents it: a selector and an operand (R21). -/
structure Request where
  level   : Level
  op      : Sel
  operand : Operand
deriving DecidableEq, Repr

/-- What the host offers a streaming decode per step (R23). -/
inductive Item where
  /-- `in_byte(b)`: the next byte of the window. -/
  | inByte (b : Byte)
  /-- `in_eow`: the window has no more bytes. -/
  | inEow
deriving DecidableEq, Repr

/-- `VALUE_OUT`: exactly `w` bits wide (R25). -/
inductive Value where
  | v16 (v : BitVec 16)
  | v32 (v : BitVec 32)
  | v64 (v : BitVec 64)
deriving DecidableEq, Repr

/-- One transfer from the block to the host. -/
inductive Output where
  /-- `emit(b, last)` (R27). -/
  | emit (b : Byte) (last : Bool)
  /-- `respond(v)` (R26). -/
  | respond (v : Value)
deriving DecidableEq, Repr

/-- Why a request names no operation. -/
inductive Reject where
  /-- `WID = 11` (R69). -/
  | reservedSelector (op : Sel)
  /-- The operand does not have the form the selector names; the interface carries no such request (R22, R23). -/
  | operandForm (op : Sel)
deriving DecidableEq, Repr

end Sys2Proof
end

