-- ==== Sys2Proof/Syntax.lean ====
section
/-! DEFINITION. The twelve operations, one constructor per row of spec/opcode_table.json (R3, R68). -/

namespace Sys2Proof

/-- An admitted request at the transaction level: the operation and its operand. An encode carries `VALUE_IN`, exactly as wide
as the operation's width (R22); a decode carries `WINDOW`, any finite byte sequence (R23). The types leave nothing to check. -/
inductive Instr where
  /-- `ENC.U16` (R120). -/
  | encU16 (v : BitVec 16)
  /-- `ENC.S16` (R121). -/
  | encS16 (v : BitVec 16)
  /-- `ENC.U32` (R122). -/
  | encU32 (v : BitVec 32)
  /-- `ENC.S32` (R123). -/
  | encS32 (v : BitVec 32)
  /-- `ENC.U64` (R124). -/
  | encU64 (v : BitVec 64)
  /-- `ENC.S64` (R125). -/
  | encS64 (v : BitVec 64)
  /-- `DEC.U16` (R142). -/
  | decU16 (window : List Byte)
  /-- `DEC.S16` (R143). -/
  | decS16 (window : List Byte)
  /-- `DEC.U32` (R144). -/
  | decU32 (window : List Byte)
  /-- `DEC.S32` (R145). -/
  | decS32 (window : List Byte)
  /-- `DEC.U64` (R146). -/
  | decU64 (window : List Byte)
  /-- `DEC.S64` (R147). -/
  | decS64 (window : List Byte)
deriving DecidableEq, Repr

end Sys2Proof
end

