-- ==== Sys2Proof/WellFormed.lean ====
section
/-! DEFINITION. What a request and a line of assembler text must satisfy. An `Instr` has nothing to check: its operand types are
exact (R22, R23). The checks are on what comes before it: a raw request's selector and operand form, an immediate's range and a
byte literal's range (R12, R69, R71). -/

namespace Sys2Proof

/-- The selector names an operation: `WID` is not 11 (R67, R69). -/
def selectorAdmitted (op : Sel) : Bool := op.extractLsb' 1 2 != 0b11#2

/-- The operand has the form the selector names (R21 to R23): for an encode a value of the width `WID` names, for a decode a
window, whole at the transaction level and offered item by item at the streaming level. -/
def operandFits (r : Request) : Bool :=
  match r.op.getLsbD 3, (r.op.extractLsb' 1 2).toNat, r.level, r.operand with
  | false, 0, _, .value16 _ => true
  | false, 1, _, .value32 _ => true
  | false, 2, _, .value64 _ => true
  | true, _, .transaction, .window _ => true
  | true, _, .streaming, .offered => true
  | _, _, _, _ => false

/-- A request the block admits (R160). -/
def Request.wellFormed (r : Request) : Bool := selectorAdmitted r.op && operandFits r

/-- The integer domain of a width and signedness (R12): `U_w` or `S_w`. -/
def inDomain (sign : Sign) (w : Width) (x : Int) : Bool :=
  match sign with
  | .unsigned => decide (0 ≤ x) && decide (x < 2 ^ w.bits)
  | .signed => decide (-(2 ^ (w.bits - 1)) ≤ x) && decide (x < 2 ^ (w.bits - 1))

/-- A byte literal an assembler admits (R71). -/
def byteLiteral (n : Nat) : Bool := decide (n ≤ 0xFF)

end Sys2Proof
end

