-- ==== Sys2Proof/Decode.lean ====
section
/-! DEFINITION. Decoding the selector and a request into an operation (R66 to R70), the encoder beside it, and the model's own
byte image of a request (log entry 3), which `decodeTableWord` reads. -/

namespace Sys2Proof

/-- `DIR`, bit 3 (R66). -/
def selDir (op : Sel) : Dir := if op.getLsbD 3 then .decode else .encode

/-- `WID`, bits 2:1 (R67); 11 is reserved (R69). -/
def selWidth (op : Sel) : Option Width :=
  match (op.extractLsb' 1 2).toNat with
  | 0 => some .w16
  | 1 => some .w32
  | 2 => some .w64
  | _ => none

/-- `SGN`, bit 0 (R66). -/
def selSign (op : Sel) : Sign := if op.getLsbD 0 then .signed else .unsigned

/-- The selector decoder, total on all 16 values (R70): an operation of R68, or `none` for the reserved verdict of R69. -/
def decodeSelector (op : Sel) : Option Operation :=
  (selWidth op).map fun w => ⟨selDir op, w, selSign op⟩

/-- `DIR` of a direction (R66). -/
def dirCode : Dir → Nat
  | .encode => 0
  | .decode => 1

/-- `WID` of a width (R67). -/
def widthCode : Width → Nat
  | .w16 => 0b00
  | .w32 => 0b01
  | .w64 => 0b10

/-- `SGN` of a signedness (R66). -/
def signCode : Sign → Nat
  | .unsigned => 0
  | .signed => 1

/-- The selector of an operation (R66): `DIR` at bit 3, `WID` at bits 2:1, `SGN` at bit 0. -/
def encodeSelector (o : Operation) : Sel :=
  BitVec.ofNat 4 (8 * dirCode o.dir + 2 * widthCode o.width + signCode o.sign)

/-- The operation and its operand, where the operand has the form the operation takes (R22, R23). -/
def attachOperand (o : Operation) (x : Operand) : Option Instr :=
  match o.dir, o.width, o.sign, x with
  | .encode, .w16, .unsigned, .value16 v => some (.encU16 v)
  | .encode, .w16, .signed,   .value16 v => some (.encS16 v)
  | .encode, .w32, .unsigned, .value32 v => some (.encU32 v)
  | .encode, .w32, .signed,   .value32 v => some (.encS32 v)
  | .encode, .w64, .unsigned, .value64 v => some (.encU64 v)
  | .encode, .w64, .signed,   .value64 v => some (.encS64 v)
  | .decode, .w16, .unsigned, .window s  => some (.decU16 s)
  | .decode, .w16, .signed,   .window s  => some (.decS16 s)
  | .decode, .w32, .unsigned, .window s  => some (.decU32 s)
  | .decode, .w32, .signed,   .window s  => some (.decS32 s)
  | .decode, .w64, .unsigned, .window s  => some (.decU64 s)
  | .decode, .w64, .signed,   .window s  => some (.decS64 s)
  | _, _, _, _ => none

/-- Decode a selector and an operand (R70). A reserved selector is rejected whatever its operand (R69). -/
def decodeRequest (op : Sel) (x : Operand) : Except Reject Instr :=
  match decodeSelector op with
  | none => .error (.reservedSelector op)
  | some o =>
    match attachOperand o x with
    | some i => .ok i
    | none => .error (.operandForm op)

/-- The operation an instruction is (R68). -/
def Instr.operation : Instr → Operation
  | .encU16 _ => ⟨.encode, .w16, .unsigned⟩
  | .encS16 _ => ⟨.encode, .w16, .signed⟩
  | .encU32 _ => ⟨.encode, .w32, .unsigned⟩
  | .encS32 _ => ⟨.encode, .w32, .signed⟩
  | .encU64 _ => ⟨.encode, .w64, .unsigned⟩
  | .encS64 _ => ⟨.encode, .w64, .signed⟩
  | .decU16 _ => ⟨.decode, .w16, .unsigned⟩
  | .decS16 _ => ⟨.decode, .w16, .signed⟩
  | .decU32 _ => ⟨.decode, .w32, .unsigned⟩
  | .decS32 _ => ⟨.decode, .w32, .signed⟩
  | .decU64 _ => ⟨.decode, .w64, .unsigned⟩
  | .decS64 _ => ⟨.decode, .w64, .signed⟩

/-- The operand an instruction carries. -/
def Instr.operand : Instr → Operand
  | .encU16 v => .value16 v
  | .encS16 v => .value16 v
  | .encU32 v => .value32 v
  | .encS32 v => .value32 v
  | .encU64 v => .value64 v
  | .encS64 v => .value64 v
  | .decU16 s => .window s
  | .decS16 s => .window s
  | .decU32 s => .window s
  | .decS32 s => .window s
  | .decU64 s => .window s
  | .decS64 s => .window s

/-- The selector an instruction is requested by (R68). -/
def Instr.selector (i : Instr) : Sel := encodeSelector i.operation

/-- The transaction-level request that asks for an instruction (R21). -/
def encode (i : Instr) : Request := ⟨.transaction, i.selector, i.operand⟩

/-! ### The model's byte image of a request

The spec gives a request four selector bits and an operand and no layout beyond that. The model's image (DESIGN CHOICE, log
entry 3) is one byte whose bits 3:0 are `OP`, then the operand: `VALUE_IN` with its least significant byte first, or the bytes
of `WINDOW` in index order. -/

/-- `n` bytes of `x`, the least significant first. -/
def leBytes : Nat → Nat → List Byte
  | 0, _ => []
  | n + 1, x => BitVec.ofNat 8 x :: leBytes n (x / 256)

/-- The number whose bytes, the least significant first, are the list. -/
def leValue : List Byte → Nat
  | [] => 0
  | b :: bs => b.toNat + 256 * leValue bs

/-- The operand bytes of the image. -/
def operandBytes : Operand → List Byte
  | .value16 v => leBytes 2 v.toNat
  | .value32 v => leBytes 4 v.toNat
  | .value64 v => leBytes 8 v.toNat
  | .window s => s
  | .offered => []

/-- The operand an image's operand bytes stand for, under the operation its selector names. An encode's operand of the wrong
length stays a byte sequence, which no encode takes. -/
def imageOperand (op : Sel) (bs : List Byte) : Operand :=
  match selDir op, selWidth op, bs.length with
  | .encode, some .w16, 2 => .value16 (BitVec.ofNat 16 (leValue bs))
  | .encode, some .w32, 4 => .value32 (BitVec.ofNat 32 (leValue bs))
  | .encode, some .w64, 8 => .value64 (BitVec.ofNat 64 (leValue bs))
  | _, _, _ => .window bs

/-- Decode an image: total on any bytes, rejecting by name. Only bits 3:0 of the first byte are matched, as the opcode table's
mask says. -/
def decodeImage (first : Byte) (rest : List Byte) : Except Reject Instr :=
  decodeRequest (first.setWidth 4) (imageOperand (first.setWidth 4) rest)

/-- The image of an instruction: its first byte and the bytes after it. -/
def encodeImage (i : Instr) : Byte × List Byte := (i.selector.setWidth 8, operandBytes i.operand)

/-- How many operand bytes an image with this selector needs at least: an encode's value is never cut short, a decode's window
may be empty. -/
def operandBytesNeeded (op : Sel) : Nat :=
  match selDir op, selWidth op with
  | .encode, some w => w.bits / 8
  | _, _ => 0

/-- The operand bytes of a table word: those within `nbits`, then zeros up to what the selector needs. -/
def tableOperandBytes (nbits w : Nat) : List Byte :=
  let bs := leBytes ((nbits + 7) / 8 - 1) (w / 256)
  bs ++ List.replicate (operandBytesNeeded (BitVec.ofNat 4 w) - bs.length) 0#8

/-- The request a table word stands for, at the transaction level. -/
def tableRequest (nbits w : Nat) : Request :=
  ⟨.transaction, BitVec.ofNat 4 w, imageOperand (BitVec.ofNat 4 w) (tableOperandBytes nbits w)⟩

/-- The instruction the decoder reads from a word of spec/opcode_table.json (bit 0 the least significant bit of the selector). -/
def decodeTableWord (nbits w : Nat) : Option Instr :=
  match decodeImage (BitVec.ofNat 8 w) (tableOperandBytes nbits w) with
  | .ok i => some i
  | .error _ => none

end Sys2Proof
end

