-- ==== Sys2Proof/Machine/State.lean ====
section
/-! DEFINITION. The block's state: the six datapath registers of R28 to R34, what the host has placed on the interface, and what
the block has sent (R21 to R27); the faults and refusals; the state after reset (R36, R180). -/

namespace Sys2Proof.Machine

/-- `PHASE` (R28). -/
inductive Phase where
  /-- No operation in progress; a request may be accepted. -/
  | idle
  /-- An encode operation is emitting bytes. -/
  | enc
  /-- A decode operation is consuming bytes. -/
  | dec
deriving DecidableEq, Repr

/-- `DSTATE`, the decode loop's state (R34). -/
inductive DState where
  | reading | terminated
deriving DecidableEq, Repr

/-- The registers that hold no value before an operation writes them (R36). -/
inductive RegName where
  | op | rem | acc | idx | dstate
deriving DecidableEq, Repr

/-- One instance of the block and its interface. -/
structure State where
  /-- `PHASE` (R28). -/
  phase : Phase
  /-- `OP`, the selector of the operation in progress (R29). -/
  op : Sel
  /-- `REM`, the encoder's remaining value (R30). -/
  rem : Acc
  /-- `ACC`, the accumulator (R32). -/
  acc : Acc
  /-- `IDX`, the decoder's byte index (R33). -/
  idx : Nat
  /-- `DSTATE` (R34). -/
  dstate : DState
  /-- Requests presented and not yet accepted, the oldest first (R24). -/
  requests : List Request
  /-- What the host offers a streaming decode, the next item first (R23). -/
  items : List Item
  /-- The host asks for reset (R180). -/
  resetLine : Bool
  /-- Everything sent to the host, the oldest first (R26, R27). -/
  out : List Output
  /-- The mark a refused request leaves for the whole run (R162, R191). -/
  refusalMark : Bool
  /-- The mark of the run for an operation that a reset abandoned: it delivered no response, so its request never ends (R180,
  R191; DEDUCED, log entry 19). -/
  abandoned : Bool
deriving DecidableEq, Repr

/-- Reasons a step stops. The block itself raises no exception (R160); each of these is a state in which the spec defines no
step (log entries 10 and 18). No state that meets the invariant of Safety.lean reaches one. -/
inductive Fault where
  /-- A register is read while it holds no value; R36 says to treat the read as a fault. Raised by the register reads of
  Machine/Ops.lean (outside the phase that wrote the register). Safe. -/
  | unsetRegisterRead (r : RegName)
  /-- A step of a decode whose `DSTATE` is already `Terminated`: R92 defines none. Raised by Machine/Streaming.lean. Safe. -/
  | decodeEnded
  /-- A decode completes with a latched selector whose `WID` is 11, which never reaches `DecodeResult` (R140). Raised by
  Machine/Streaming.lean. Safe. -/
  | reservedWidthLatched (op : Sel)
deriving DecidableEq, Repr

/-- Reasons a request gets no meaning. -/
inductive Refusal where
  /-- An operation without a meaning yet. No arm raises it: every operation has its meaning. Safe. -/
  | notModelled (mnemonic : String)
  /-- `refuse(ReservedSelector)` (R69, R162): `WID` is 11. Raised on acceptance. Safe: errs toward unprovable, as R162 says. -/
  | reservedSelector (op : Sel)
  /-- The operand presented does not have the form the selector names; the interface carries no such request (R22, R23). Raised
  on acceptance. Safe. Log entry 6. -/
  | operandForm (op : Sel)
deriving DecidableEq, Repr

/-- What one step of the block answers. -/
abbrev Outcome := Host.Outcome State Fault Refusal

/-- The block right after reset: `PHASE = Idle` (R180). The other datapath registers hold no value (R36); the values here are
the model's (DESIGN CHOICE, unsafe, log entry 1), as are the empty interface lists (log entry 2). -/
def State.reset : State where
  phase := .idle
  op := 0b0000#4
  rem := 0
  acc := 0
  idx := 0
  dstate := .reading
  requests := []
  items := []
  resetLine := false
  out := []
  refusalMark := false
  abandoned := false

end Sys2Proof.Machine
end

