-- ==== Sys2Proof/Machine/Flags.lean ====
section
/-! DEFINITION. The block has no flag, condition code or status register (R35), so no operation computes one. The only condition
bits the rules read are the continuation bit of a byte and the end marker of an emitted byte; they stand here. -/

namespace Sys2Proof.Machine

/-- `C`, bit 7 of a byte: more bytes follow (R41, R60). -/
def continues (b : Byte) : Bool := b.getLsbD 7

/-- `PAYLOAD`, bits 6:0 of a byte (R41, R60). -/
def payload (b : Byte) : BitVec 7 := b.extractLsb' 0 7

/-- A byte with `C = 1` carrying the low 7 bits of `x` (R60, R80). -/
def continuationByte {A : Nat} (x : BitVec A) : Byte := (x.extractLsb' 0 7).setWidth 8 ||| 0x80#8

/-- The final byte: the remaining value itself, at most 127, so `C = 0` (R80). -/
def finalByte {A : Nat} (x : BitVec A) : Byte := x.setWidth 8

/-- The emissions of an encoding in index order (R27, R42): `last` is 1 on the final byte and 0 on every other. -/
def emissions : List Byte → List Output
  | [] => []
  | [b] => [.emit b true]
  | b :: c :: bs => .emit b false :: emissions (c :: bs)

end Sys2Proof.Machine
end

