-- ==== Sys2Proof/Machine/Codec.lean ====
section
/-! DEFINITION. The unsigned variable-length codec: `EncodeAcc` (R80) and `DecodeAcc` (R85), over an accumulator of any
width. -/

namespace Sys2Proof.Machine

/-- How many continuation bytes an `A`-bit value can take at most: each shifts it right by 7. -/
def encodeFuel (A : Nat) : Nat := A / 7

/-- The loop of `EncodeAcc` (R80): while the value exceeds 127, a continuation byte and a shift by 7; then the final byte. -/
def encodeLoop {A : Nat} : Nat → BitVec A → List Byte
  | 0, x => [finalByte x]
  | n + 1, x => if 127 < x.toNat then continuationByte x :: encodeLoop n (x >>> 7) else [finalByte x]

/-- `EncodeAcc(x)` (R80). -/
def encodeAcc {A : Nat} (x : BitVec A) : List Byte := encodeLoop (encodeFuel A) x

/-- The value left when the loop of `EncodeAcc` ends: what the encoder's steps leave in `REM` (R91). -/
def encodeRest {A : Nat} : Nat → BitVec A → BitVec A
  | 0, x => x
  | n + 1, x => if 127 < x.toNat then encodeRest n (x >>> 7) else x

/-- One accumulation (R85, R92): `acc OR trunc_A(b[6:0] << (7 * i))`. Payload bits that land at `A` or above are dropped and the
shift amount does not wrap (R86; UNVERIFIED against a software build, log entry 9). -/
def accumulate {A : Nat} (acc : BitVec A) (i : Nat) (b : Byte) : BitVec A :=
  acc ||| ((payload b).setWidth A <<< (7 * i))

/-- The loop of `DecodeAcc` (R85): stops at the first byte with `C = 0`, or where the input is exhausted (R88). -/
def decodeLoop {A : Nat} : List Byte → BitVec A → Nat → BitVec A × Nat
  | [], acc, i => (acc, i)
  | b :: s, acc, i =>
    if continues b then decodeLoop s (accumulate acc i b) (i + 1) else (accumulate acc i b, i + 1)

/-- `DecodeAcc(s)` (R85): the accumulated value and the number of bytes consumed (R89). -/
def decodeAcc (A : Nat) (s : List Byte) : BitVec A × Nat := decodeLoop s 0 0

end Sys2Proof.Machine
end

