-- ==== Sys2Proof/Machine/Zigzag.lean ====
section
/-! DEFINITION. The zigzag transform on accumulator patterns of any width (R100, R103). -/

namespace Sys2Proof.Machine

/-- `ZigZagFwd(p)` (R100): `(p << 1) XOR (p >>s (A - 1))`. -/
def zigzagFwd {A : Nat} (p : BitVec A) : BitVec A := (p <<< 1) ^^^ p.sshiftRight (A - 1)

/-- `ZigZagInv(z)` (R103): `(z >>s 1) XOR -(z AND 1)`; the shift is arithmetic. -/
def zigzagInv {A : Nat} (z : BitVec A) : BitVec A := z.sshiftRight 1 ^^^ (-(z &&& 1#A))

end Sys2Proof.Machine
end

