-- ==== Sys2Proof/Machine/Operands.lean ====
section
/-! DEFINITION. Operand assembly: widening into the accumulator (R64), narrowing out of it (R65, R141), the value an encode
starts from (R181) and the value a decode answers (R140). -/

namespace Sys2Proof.Machine

/-- `zext_A` (R64): an unsigned operand in the accumulator. -/
def widenUnsigned {w : Nat} (A : Nat) (v : BitVec w) : BitVec A := v.setWidth A

/-- `sext_A` (R64): a signed operand in the accumulator. -/
def widenSigned {w : Nat} (A : Nat) (v : BitVec w) : BitVec A := v.signExtend A

/-- `trunc_w` (R141): the low `w` bits, with no overflow check. -/
def narrow {A : Nat} (w : Nat) (z : BitVec A) : BitVec w := z.setWidth w

/-- What `REM` is loaded with (R181): the widened operand, zigzag-mapped for a signed operation. -/
def initialRem {w : Nat} (sign : Sign) (v : BitVec w) : Acc :=
  match sign with
  | .unsigned => widenUnsigned Config.accWidth v
  | .signed => zigzagFwd (widenSigned Config.accWidth v)

/-- What `REM` is loaded with for an operand of the operation's own width (R22, R181); `none` for any other operand. -/
def operandRem (o : Operation) (x : Operand) : Option Acc :=
  match o.width, x with
  | .w16, .value16 v => some (initialRem o.sign v)
  | .w32, .value32 v => some (initialRem o.sign v)
  | .w64, .value64 v => some (initialRem o.sign v)
  | _, _ => none

/-- The low bits of `z` as a value of the given width (R25). -/
def valueOf {A : Nat} (w : Width) (z : BitVec A) : Value :=
  match w with
  | .w16 => .v16 (narrow 16 z)
  | .w32 => .v32 (narrow 32 z)
  | .w64 => .v64 (narrow 64 z)

/-- `DecodeResult(op, z)` (R140); `none` for the width code 11, which never reaches it. -/
def decodeResult {A : Nat} (op : Sel) (z : BitVec A) : Option Value :=
  (selWidth op).map fun w =>
    match selSign op with
    | .unsigned => valueOf w z
    | .signed => valueOf w (zigzagInv z)

end Sys2Proof.Machine
end

