-- ==== Sys2Proof/Machine/Ops.lean ====
section
/-! DEFINITION. The named operations over the registers and the interface: register reads (R36), `emit` and `respond` (R26, R27),
acceptance (R24, R181), holding a request, reset (R180), and the two shared shapes of an operation, an encode and a decode. The
block takes no exception (R160, R165), so there is no exception entry or return to write. -/

namespace Sys2Proof.Machine

/-- Read `REM`: it holds a value while an encode is in progress (R30, R36). R36 speaks of reads in `Idle`; the other phase is
DEDUCED, as for the reads below (log entry 10). -/
def readRem (s : State) : Except Fault Acc :=
  if s.phase = .enc then .ok s.rem else .error (.unsetRegisterRead .rem)

/-- Read `OP`: it holds a value while an operation is in progress (R29, R36). -/
def readOp (s : State) : Except Fault Sel :=
  if s.phase = .idle then .error (.unsetRegisterRead .op) else .ok s.op

/-- Read `ACC`: it holds a value while a decode is in progress (R32, R36). -/
def readAcc (s : State) : Except Fault Acc :=
  if s.phase = .dec then .ok s.acc else .error (.unsetRegisterRead .acc)

/-- Read `IDX`: it holds a value while a decode is in progress (R33, R36). -/
def readIdx (s : State) : Except Fault Nat :=
  if s.phase = .dec then .ok s.idx else .error (.unsetRegisterRead .idx)

/-- Read `DSTATE`: it holds a value while a decode is in progress (R34, R36). -/
def readDState (s : State) : Except Fault DState :=
  if s.phase = .dec then .ok s.dstate else .error (.unsetRegisterRead .dstate)

/-- `emit(b, last)` (R27). The host takes every transfer (DESIGN CHOICE, log entry 12). -/
def emit (b : Byte) (last : Bool) (s : State) : State := { s with out := s.out ++ [.emit b last] }

/-- `respond(v)` (R26): delivers the value and returns to `Idle`. -/
def respond (v : Value) (s : State) : State := { s with out := s.out ++ [.respond v], phase := .idle }

/-- Acceptance of an encode (R181). -/
def acceptEncode (op : Sel) (x : Acc) (s : State) : State := { s with op := op, rem := x, phase := .enc }

/-- Acceptance of a decode (R181). -/
def acceptDecode (op : Sel) (s : State) : State :=
  { s with op := op, acc := 0, idx := 0, dstate := .reading, phase := .dec }

/-- `refuse` (R162), as a step's outcome: no meaning, no register written. The mark stands in the state the host goes on from
(`afterRefusal`; DEDUCED, log entry 11). -/
def refuse (why : Reject) : Outcome :=
  match why with
  | .reservedSelector op => .refused (.reservedSelector op)
  | .operandForm op => .refused (.operandForm op)

/-- `Accept(OP, operand)` at the streaming level (R181): refuse a reserved selector, else latch the selector and write the
registers the operation starts from. The operand is the value of an encode; a decode's window follows item by item. -/
def accept (op : Sel) (x : Operand) (s : State) : Outcome :=
  match decodeSelector op with
  | none => refuse (.reservedSelector op)
  | some o =>
    match o.dir with
    | .encode =>
      match operandRem o x with
      | some r => .next (acceptEncode op r s)
      | none => refuse (.operandForm op)
    | .decode =>
      match x with
      | .offered => .next (acceptDecode op s)
      | _ => refuse (.operandForm op)

/-- A request presented while the block is busy stays presented (R24). The dispatch puts it back first in line (DEDUCED, log
entry 14). -/
def hold (r : Request) (s : State) : State := { s with requests := r :: s.requests }

/-- A request is accepted only in `Idle`; otherwise it is held, not lost and not refused (R24). -/
def whenIdle (i : Instr) (s : State) (run : State → State) : Outcome :=
  if s.phase = .idle then .next (run s) else .next (hold (encode i) s)

/-- A whole encode (Common start of R120 to R125, R91): accept, emit `EncodeAcc(x)`, return to `Idle`. `REM` is left as the
encoder's last step leaves it (DEDUCED, log entry 5). -/
def runEncode (op : Sel) (x : Acc) (s : State) : State :=
  { acceptEncode op x s with
    rem := encodeRest (encodeFuel Config.accWidth) x
    out := s.out ++ emissions (encodeAcc x)
    phase := .idle }

/-- A whole decode (Common start of R142 to R147, R85, R92): accept, accumulate the window, respond. `ACC`, `IDX` and `DSTATE` are
left as the decoder's last step leaves them (R93; log entry 5). -/
def runDecode (op : Sel) (window : List Byte) (result : Acc → Value) (s : State) : State :=
  let zc := decodeAcc Config.accWidth window
  respond (result zc.1) { acceptDecode op s with acc := zc.1, idx := zc.2, dstate := .terminated }

/-- The registers right after reset (R180): `PHASE` is `Idle`, and every other register holds no value (R36); the model writes
the values of `State.reset` there. What the interface holds is the host's and stays (DESIGN CHOICE, log entry 4). An
operation in progress is abandoned, and the run keeps that it was (R191; DEDUCED, log entry 19). -/
def applyReset (s : State) : State :=
  { s with
    phase := State.reset.phase, op := State.reset.op, rem := State.reset.rem, acc := State.reset.acc
    idx := State.reset.idx, dstate := State.reset.dstate, resetLine := false
    abandoned := s.abandoned || s.phase != .idle }

end Sys2Proof.Machine
end

