-- ==== Sys2Proof/Machine/DecodeOps.lean ====
section
/-! DEFINITION. The six decode operations (R142 to R147), each as `43_decode_ops.md` writes it. -/

namespace Sys2Proof.Machine

/-- `DEC.U16`, selector 1000 (R142). -/
def execDecU16 (window : List Byte) (s : State) : Outcome :=
  whenIdle (.decU16 window) s (runDecode 0b1000#4 window fun z => .v16 (narrow 16 z))

/-- `DEC.S16`, selector 1001 (R143). -/
def execDecS16 (window : List Byte) (s : State) : Outcome :=
  whenIdle (.decS16 window) s (runDecode 0b1001#4 window fun z => .v16 (narrow 16 (zigzagInv z)))

/-- `DEC.U32`, selector 1010 (R144). -/
def execDecU32 (window : List Byte) (s : State) : Outcome :=
  whenIdle (.decU32 window) s (runDecode 0b1010#4 window fun z => .v32 (narrow 32 z))

/-- `DEC.S32`, selector 1011 (R145). -/
def execDecS32 (window : List Byte) (s : State) : Outcome :=
  whenIdle (.decS32 window) s (runDecode 0b1011#4 window fun z => .v32 (narrow 32 (zigzagInv z)))

/-- `DEC.U64`, selector 1100 (R146). -/
def execDecU64 (window : List Byte) (s : State) : Outcome :=
  whenIdle (.decU64 window) s (runDecode 0b1100#4 window fun z => .v64 (narrow 64 z))

/-- `DEC.S64`, selector 1101 (R147). -/
def execDecS64 (window : List Byte) (s : State) : Outcome :=
  whenIdle (.decS64 window) s (runDecode 0b1101#4 window fun z => .v64 (narrow 64 (zigzagInv z)))

end Sys2Proof.Machine
end

