-- ==== Sys2Proof/Machine/EncodeOps.lean ====
section
/-! DEFINITION. The six encode operations (R120 to R125), each as `42_encode_ops.md` writes it. -/

namespace Sys2Proof.Machine

/-- `ENC.U16`, selector 0000 (R120). -/
def execEncU16 (v : BitVec 16) (s : State) : Outcome :=
  whenIdle (.encU16 v) s (runEncode 0b0000#4 (widenUnsigned Config.accWidth v))

/-- `ENC.S16`, selector 0001 (R121). -/
def execEncS16 (v : BitVec 16) (s : State) : Outcome :=
  whenIdle (.encS16 v) s (runEncode 0b0001#4 (zigzagFwd (widenSigned Config.accWidth v)))

/-- `ENC.U32`, selector 0010 (R122). -/
def execEncU32 (v : BitVec 32) (s : State) : Outcome :=
  whenIdle (.encU32 v) s (runEncode 0b0010#4 (widenUnsigned Config.accWidth v))

/-- `ENC.S32`, selector 0011 (R123). -/
def execEncS32 (v : BitVec 32) (s : State) : Outcome :=
  whenIdle (.encS32 v) s (runEncode 0b0011#4 (zigzagFwd (widenSigned Config.accWidth v)))

/-- `ENC.U64`, selector 0100 (R124). -/
def execEncU64 (v : BitVec 64) (s : State) : Outcome :=
  whenIdle (.encU64 v) s (runEncode 0b0100#4 (widenUnsigned Config.accWidth v))

/-- `ENC.S64`, selector 0101 (R125). -/
def execEncS64 (v : BitVec 64) (s : State) : Outcome :=
  whenIdle (.encS64 v) s (runEncode 0b0101#4 (zigzagFwd (widenSigned Config.accWidth v)))

end Sys2Proof.Machine
end

