-- ==== Sys2Proof/Machine/Dispatch.lean ====
section
/-! DEFINITION. The dispatch: one meaning per operation (R68). -/

namespace Sys2Proof.Machine

/-- The meaning of an admitted transaction-level request, already taken off the interface. -/
def exec (i : Instr) (s : State) : Host.Outcome State Fault Refusal :=
  match i with
  | .encU16 v => Sys2Proof.Machine.execEncU16 v s
  | .encS16 v => Sys2Proof.Machine.execEncS16 v s
  | .encU32 v => Sys2Proof.Machine.execEncU32 v s
  | .encS32 v => Sys2Proof.Machine.execEncS32 v s
  | .encU64 v => Sys2Proof.Machine.execEncU64 v s
  | .encS64 v => Sys2Proof.Machine.execEncS64 v s
  | .decU16 window => Sys2Proof.Machine.execDecU16 window s
  | .decS16 window => Sys2Proof.Machine.execDecS16 window s
  | .decU32 window => Sys2Proof.Machine.execDecU32 window s
  | .decS32 window => Sys2Proof.Machine.execDecS32 window s
  | .decU64 window => Sys2Proof.Machine.execDecU64 window s
  | .decS64 window => Sys2Proof.Machine.execDecS64 window s

end Sys2Proof.Machine
end

