-- ==== Sys2Proof/Machine/Streaming.lean ====
section
/-! DEFINITION. The streaming steps: one emitted byte (R91), one consumed item (R92), and the wait while nothing is offered
(R186). -/

namespace Sys2Proof.Machine

/-- `EncStep` (R91). -/
def encStep (s : State) : Outcome :=
  match readRem s with
  | .error f => .fault f
  | .ok r =>
    if 127 < r.toNat then
      .next { emit (continuationByte r) false s with rem := r >>> 7 }
    else
      .next { emit (finalByte r) true s with phase := .idle }

/-- `Finish` (R92): respond with `DecodeResult(x[OP], x[ACC])`. -/
def finish (s : State) : Outcome :=
  match readOp s with
  | .error f => .fault f
  | .ok op =>
    match readAcc s with
    | .error f => .fault f
    | .ok z =>
      match decodeResult op z with
      | some v => .next (respond v s)
      | none => .fault (.reservedWidthLatched op)

/-- `DecStep` on one item the host has handed over (R92). -/
def decStep (it : Item) (s : State) : Outcome :=
  match it with
  | .inByte b =>
    match readAcc s with
    | .error f => .fault f
    | .ok z =>
      match readIdx s with
      | .error f => .fault f
      | .ok i =>
        if continues b then .next { s with acc := accumulate z i b, idx := i + 1 }
        else finish { s with acc := accumulate z i b, idx := i + 1, dstate := .terminated }
  | .inEow => finish { s with dstate := .terminated }

/-- A decode in progress: take the next offered item (DESIGN CHOICE, log entry 13), or wait (R92, R186). A decode that
has terminated consumes no further item (R34); no step is defined for it (DEDUCED, log entry 18). -/
def decPhase (s : State) : Outcome :=
  match readDState s with
  | .error f => .fault f
  | .ok .terminated => .fault .decodeEnded
  | .ok .reading =>
    match s.items with
    | [] => .next s
    | it :: rest => decStep it { s with items := rest }

end Sys2Proof.Machine
end

