-- ==== Sys2Proof/Machine/Serve.lean ====
section
/-! DEFINITION. Serving a request in `Idle`, and what one step of the block does (R24, R91, R92, R180, R181). -/

namespace Sys2Proof.Machine

/-- A request taken off the interface in `Idle`: at the transaction level the whole operation (R21), at the streaming level its
acceptance (R181). -/
def serveRequest (r : Request) (s : State) : Outcome :=
  match r.level with
  | .transaction =>
    match decodeRequest r.op r.operand with
    | .ok i => exec i s
    | .error why => refuse why
  | .streaming => accept r.op r.operand s

/-- `Idle`: serve the oldest request presented; with none presented nothing happens (R24, R28; DEDUCED,
log entry 15). -/
def serve (s : State) : Outcome :=
  match s.requests with
  | [] => .next s
  | r :: rest => serveRequest r { s with requests := rest }

/-- One step. Reset comes before anything else (R164, R180; DEDUCED, log entry 4). -/
def stepBlock (s : State) : Outcome :=
  if s.resetLine then .next (applyReset s)
  else
    match s.phase with
    | .idle => serve s
    | .enc => encStep s
    | .dec => decPhase s

/-- The block idle, with no reset asked for, and this request the first it will serve. -/
def placeRequest (r : Request) (s : State) : State :=
  { s with phase := .idle, resetLine := false, requests := r :: s.requests }

end Sys2Proof.Machine
end

