-- ==== Sys2Proof/Machine/Step.lean ====
section
/-! DEFINITION. The step function and the placing of a table word where the next step takes its request. -/

namespace Sys2Proof.Machine

/-- One step of the block. -/
def step : State → Host.Outcome State Fault Refusal := stepBlock

/-- The state whose very next step serves the request this table word stands for: the host presents it to an idle block (log
entry 7). -/
def State.withFetchWord (s : State) (nbits w : Nat) : State := placeRequest (tableRequest nbits w) s

end Sys2Proof.Machine
end

