-- ==== Sys2Proof/Machine/HostPort.lean ====
section
/-! DEFINITION. The host's side of the interface: what the host may do between two steps (R192), how it reads the responses (R21,
R27), the discard after a reset (R180), framing (R62, R185), what is left after a refused request and how a run goes on (R162). -/

namespace Sys2Proof.Machine

/-- The host presents a request; while the block is busy it is held (R24). -/
def present (r : Request) (s : State) : State := { s with requests := s.requests ++ [r] }

/-- The host offers one more item to a streaming decode (R23). -/
def offer (it : Item) (s : State) : State := { s with items := s.items ++ [it] }

/-- The items that carry a whole window, closed by `in_eow` (R93, R186). -/
def windowItems (w : List Byte) : List Item := w.map Item.inByte ++ [.inEow]

/-- The host takes back what has not been consumed (R23, R190). -/
def withdrawItems (s : State) : State := { s with items := [] }

/-- The host asks for reset (R180, R192). -/
def assertReset (s : State) : State := { s with resetLine := true }

/-- What a refused request leaves (R162): `PHASE` and every register as they were, the request gone, the mark set. -/
def afterRefusal (s : State) : State := { s with requests := s.requests.tail, refusalMark := true }

/-- One step as the host sees a run go on (R162, R191): after a refused request the block is in `Idle` with the mark, and its
next request is served. `none` only where a step faults, which no state of the invariant does (R160). -/
def proceed (s : State) : Option State :=
  match step s with
  | .next t => some t
  | .refused _ => some (afterRefusal s)
  | .fault _ => none

/-- A whole response at the transaction level (R21). -/
inductive Response where
  /-- `BYTES_OUT` (R27). -/
  | bytesOut (s : List Byte)
  /-- `VALUE_OUT` (R25). -/
  | valueOut (v : Value)
deriving DecidableEq, Repr

/-- Group transfers into responses, given the bytes of an encoding still open (R26, R27, R187). -/
def collect : List Byte → List Output → List Response
  | _, [] => []
  | pend, .emit b last :: o =>
    if last then .bytesOut (pend ++ [b]) :: collect [] o else collect (pend ++ [b]) o
  | _, .respond v :: o => .valueOut v :: collect [] o

/-- The complete responses among the transfers, in order. -/
def responses (o : List Output) : List Response := collect [] o

/-- A transfer that leaves an encoding open. -/
def leavesOpen : Output → Bool
  | .emit _ last => !last
  | .respond _ => false

/-- The host's duty after a reset: discard the bytes of an unfinished encode (R180). -/
def discardUnfinished (o : List Output) : List Output := (o.reverse.dropWhile leavesOpen).reverse

/-- The length of the varint at the start of a sequence (R62): one more than the first index with `C = 0`; `none` where the
sequence holds no terminated varint. -/
def varintLength : List Byte → Option Nat
  | [] => none
  | b :: s => if continues b then (varintLength s).map (· + 1) else some 1

/-- Framing (R185): the window of the first varint of a buffer, and the rest of the buffer. -/
def frame (s : List Byte) : Option (List Byte × List Byte) :=
  (varintLength s).map fun n => (s.take n, s.drop n)

end Sys2Proof.Machine
end

