-- ==== Sys2Proof/Machine/Instances.lean ====
section
/-! DEFINITION. Several instances of the block (R168): a list of states of which one is stepped at a time. Instances share no
state and send each other nothing. One is stepped at a time (DEDUCED, log entry 16). -/

namespace Sys2Proof.Machine

/-- Step instance `k` as its host sees it go on (`proceed`): a refused request leaves the instance in `Idle` with its mark, and
every other as it was. `none` where there is no such instance, or where its step faults, which no state of the invariant does. -/
def stepInstance (k : Nat) (blocks : List State) : Option (List State) :=
  (blocks[k]?.bind proceed).map (blocks.set k ·)

end Sys2Proof.Machine
end

