-- ==== Sys2Proof/Machine/Assembler.lean ====
section
/-! DEFINITION. The request notation of R71: `ENC.<s><w> <imm>` and `DEC.<s><w> [<b0>, <b1>, ...]`, with the two refusals of an
assembler (an immediate outside its domain, a byte literal above 0xFF). What R71 leaves open of the text is the model's (DESIGN CHOICE, log
entry 17). -/

namespace Sys2Proof.Machine

/-- Why an assembler refuses a line. -/
inductive AsmError where
  /-- No mnemonic of R68. -/
  | mnemonic
  /-- The operand is not written as R71 writes it. -/
  | operand
  /-- The immediate lies outside `U_w` or `S_w` (R71). -/
  | immediateRange
  /-- A byte literal above 0xFF (R71). -/
  | byteRange
deriving DecidableEq, Repr

/-- The width as it is written. -/
def widthText : Width → List Char
  | .w16 => ['1', '6']
  | .w32 => ['3', '2']
  | .w64 => ['6', '4']

/-- The mnemonic of an operation (R68, R71). -/
def mnemonicText (o : Operation) : List Char :=
  (match o.dir with | .encode => ['E', 'N', 'C', '.'] | .decode => ['D', 'E', 'C', '.'])
    ++ (match o.sign with | .unsigned => ['U'] | .signed => ['S']) ++ widthText o.width

/-- The twelve operations in the order of their selectors (R68). -/
def allOperations : List Operation :=
  [Dir.encode, Dir.decode].flatMap fun d =>
    [Width.w16, Width.w32, Width.w64].flatMap fun w =>
      [Sign.unsigned, Sign.signed].map fun g => ⟨d, w, g⟩

/-- The operation a mnemonic names. -/
def parseMnemonic (t : List Char) : Option Operation := allOperations.find? fun o => mnemonicText o == t

/-- The digits of a base, each at the place that is its value: decimal digits, and the hexadecimal ones of R71. -/
def digitsOf (base : Nat) : List Char := "0123456789ABCDEF".toList.take base

/-- The number written by digits of a base, read after the number `n` already read; letters of either case (log entry 17). -/
def readDigits (base : Nat) (text : List Char) (n : Nat) : Option Nat :=
  text.foldlM (fun m c => ((digitsOf base).idxOf? c.toUpper).map (m * base + ·)) n

/-- A hexadecimal literal, `0x` and at least one digit. R71 writes a byte as `0xHH`; a byte of one digit (`0x5`) or of more than
two (`0x005`) is read as its number all the same (DESIGN CHOICE, log entry 17). -/
def parseHex : List Char → Option Nat
  | '0' :: 'x' :: d :: ds => readDigits 16 (d :: ds) 0
  | _ => none

/-- A decimal or hexadecimal literal. -/
def parseNat (t : List Char) : Option Nat :=
  match parseHex t with
  | some n => some n
  | none => if t.isEmpty then none else readDigits 10 t 0

/-- An immediate, with a leading `-` for a negative signed operand. -/
def parseInt : List Char → Option Int
  | '-' :: cs => (parseNat cs).map fun n => -(n : Int)
  | cs => (parseNat cs).map fun n => (n : Int)

/-- The byte literals of a window: each `0xHH`, separated by `", "`. -/
def parseByteList (t : List Char) : Option (List Nat) :=
  if t.isEmpty then some []
  else (((t.filter (· ≠ ' ')).splitOn ',').mapM parseHex)

/-- A window, `[` its bytes `]`. -/
def parseWindow (t : List Char) : Option (List Nat) :=
  match t, t.getLast? with
  | '[' :: cs, some ']' => parseByteList cs.dropLast
  | _, _ => none

/-- The operand of an encode as a pattern of the operation's width (R12, R22). -/
def valueOperand (w : Width) (x : Int) : Operand :=
  match w with
  | .w16 => .value16 (BitVec.ofInt 16 x)
  | .w32 => .value32 (BitVec.ofInt 32 x)
  | .w64 => .value64 (BitVec.ofInt 64 x)

/-- The operand of an encode with an immediate, refused outside its domain (R71). -/
def assembleEncode (o : Operation) (x : Int) : Except AsmError Request :=
  if inDomain o.sign o.width x then .ok ⟨.transaction, encodeSelector o, valueOperand o.width x⟩
  else .error .immediateRange

/-- A decode with the byte literals of its window, refused where one is above 0xFF (R71). -/
def assembleDecode (o : Operation) (bytes : List Nat) : Except AsmError Request :=
  if bytes.all byteLiteral then
    .ok ⟨.transaction, encodeSelector o, .window (bytes.map fun n => BitVec.ofNat 8 n)⟩
  else .error .byteRange

/-- Assemble one line: a mnemonic, a space, an operand (R71). -/
def assembleChars (line : List Char) : Except AsmError Request :=
  let m := line.takeWhile (· ≠ ' ')
  let t := (line.dropWhile (· ≠ ' ')).drop 1
  match parseMnemonic m with
  | none => .error .mnemonic
  | some o =>
    match o.dir with
    | .encode =>
      match parseInt t with
      | some x => assembleEncode o x
      | none => .error .operand
    | .decode =>
      match parseWindow t with
      | some bs => assembleDecode o bs
      | none => .error .operand

/-- Assemble one line of text. -/
def assemble (line : String) : Except AsmError Request := assembleChars line.toList

end Sys2Proof.Machine
end

