-- ==== Sys2Proof/Machine/Program.lean ====
section
/-! DEFINITION. The host program notation of R72: lines `t<n> = <request>`, with windows and operands that may name earlier
responses, and how the host runs one line at the transaction level. -/

namespace Sys2Proof.Machine

/-- A window expression (R10, R72). The sequence operations are the host's, not the block's. -/
inductive SeqExpr where
  /-- Bytes written out. -/
  | lit (s : List Byte)
  /-- `t<n>`: the bytes an earlier encode returned. -/
  | bound (n : Nat)
  /-- `s ++ t`. -/
  | append (a b : SeqExpr)
  /-- `take(s, k)`. -/
  | take (a : SeqExpr) (k : Nat)
  /-- `drop(s, k)`. -/
  | drop (a : SeqExpr) (k : Nat)
deriving DecidableEq, Repr

/-- An encode operand: an immediate, or `t<n>`, the value of an earlier decode. -/
inductive OperandExpr where
  | imm (x : Int)
  | bound (n : Nat)
deriving DecidableEq, Repr

/-- The right side of a line. -/
inductive RequestExpr where
  /-- An encode request. -/
  | enc (w : Width) (g : Sign) (x : OperandExpr)
  /-- A decode request. -/
  | dec (w : Width) (g : Sign) (s : SeqExpr)
  /-- Selector bits and an operand written out, as program P4 writes its reserved request. -/
  | raw (op : Sel) (x : Operand)
deriving DecidableEq, Repr

/-- What the names bound so far stand for: the response and the signedness of the operation that gave it. -/
abbrev Env := List (Nat × Sign × Response)

/-- The integer a delivered value stands for (R25): `uint` or `sint_w`. -/
def valueInt (g : Sign) : Value → Int
  | .v16 v => match g with | .unsigned => v.toNat | .signed => v.toInt
  | .v32 v => match g with | .unsigned => v.toNat | .signed => v.toInt
  | .v64 v => match g with | .unsigned => v.toNat | .signed => v.toInt

/-- The bytes a window expression stands for; `none` where a name is not the bytes of an earlier encode. -/
def evalSeq (env : Env) : SeqExpr → Option (List Byte)
  | .lit s => some s
  | .bound n =>
    match env.lookup n with
    | some (_, .bytesOut s) => some s
    | _ => none
  | .append a b => do return (← evalSeq env a) ++ (← evalSeq env b)
  | .take a k => do return (← evalSeq env a).take k
  | .drop a k => do return (← evalSeq env a).drop k

/-- The integer an encode operand stands for. A name stands for the integer of an earlier decode (R72; log entry 8 on its width
and signedness). -/
def evalOperand (env : Env) : OperandExpr → Option Int
  | .imm x => some x
  | .bound n =>
    match env.lookup n with
    | some (g, .valueOut v) => some (valueInt g v)
    | _ => none

/-- The request a right side stands for, with the signedness of its response. -/
def evalRequest (env : Env) : RequestExpr → Option (Sign × Request)
  | .enc w g x =>
    match evalOperand env x with
    | some n =>
      match assembleEncode ⟨.encode, w, g⟩ n with
      | .ok r => some (g, r)
      | .error _ => none
    | none => none
  | .dec w g s => (evalSeq env s).map fun bs => (g, ⟨.transaction, encodeSelector ⟨.decode, w, g⟩, .window bs⟩)
  | .raw op x => some (selSign op, ⟨.transaction, op, x⟩)

/-- Run one line `t<n> = <request>` on a block with no request waiting: present it, step once, bind the response. A refused
request binds nothing and leaves the mark (R162). `none` where the line is not meaningful in its environment. -/
def runLine (n : Nat) (e : RequestExpr) (st : State × Env) : Option (State × Env) :=
  match evalRequest st.2 e with
  | none => none
  | some (g, r) =>
    let s1 := present r st.1
    match step s1 with
    | .next t =>
      match responses (t.out.drop s1.out.length) with
      | v :: _ => some (t, (n, g, v) :: st.2)
      | [] => none
    | .refused _ => some (afterRefusal s1, st.2)
    | .fault _ => none

/-- Run the lines of a host program in order. -/
def runLines : List (Nat × RequestExpr) → State × Env → Option (State × Env)
  | [], st => some st
  | (n, e) :: ls, st =>
    match runLine n e st with
    | some st' => runLines ls st'
    | none => none

end Sys2Proof.Machine
end

