-- ==== Sys2Proof/Safety.lean ====
section
/-! DEFINITION. What claims are stated in: the invariant of a block's states, the end of a run and a good run (R191), and the two
documented hazards as predicates a host can check (R183, R184). -/

namespace Sys2Proof.Machine

/-- While an encode is in progress the latched selector names an encode, and `REM` lies in the unsigned domain of its width
(R29, R30, R102). -/
def encodingSound (s : State) : Prop :=
  s.phase = .enc → ∃ o, decodeSelector s.op = some o ∧ o.dir = .encode ∧ s.rem.toNat < 2 ^ o.width.bits

/-- While a decode is in progress the latched selector names a decode, the loop is `Reading`, and `ACC` holds no bit at or above
position `7 * IDX` (R29, R34, R85). -/
def decodingSound (s : State) : Prop :=
  s.phase = .dec →
    (∃ o, decodeSelector s.op = some o ∧ o.dir = .decode) ∧ s.dstate = .reading ∧ s.acc.toNat < 2 ^ (7 * s.idx)

/-- Every emitted byte's end marker is the complement of its continuation bit (R27). -/
def markersSound (s : State) : Prop := ∀ b last, Output.emit b last ∈ s.out → last = !continues b

/-- The invariant of the block's states. -/
def Inv (s : State) : Prop := encodingSound s ∧ decodingSound s ∧ markersSound s

/-- `k` steps of the block, stopping at the first fault or refusal. -/
def runSteps : Nat → State → Outcome
  | 0, s => .next s
  | k + 1, s =>
    match step s with
    | .next t => runSteps k t
    | .fault f => .fault f
    | .refused r => .refused r

/-- Every request has ended and `PHASE = Idle` (R191): none is waiting, none is in progress, and none was abandoned by a reset,
which is no end (log entry 19). -/
def Ended (s : State) : Prop := s.requests = [] ∧ s.phase = .idle ∧ s.abandoned = false

/-- A run is good when it has ended and carries no refusal mark (R191). -/
def GoodEnd (s : State) : Prop := Ended s ∧ s.refusalMark = false

/-- A short read (R184): no byte of the window has `C = 0`. -/
def shortRead (window : List Byte) : Bool := window.all continues

/-- A narrowing overflow (R183): the accumulator value, through the inverse zigzag for a signed operation, lies outside the
target's domain. -/
def narrowingOverflow (g : Sign) (w : Width) (z : Acc) : Bool :=
  match g with
  | .unsigned => !inDomain .unsigned w z.toNat
  | .signed => !inDomain .signed w (zigzagInv z).toInt

end Sys2Proof.Machine
end

