-- ==== Sys2Proof/Certificates/Slice0/Obligations.lean ====
section
/-! DEFINITION. The statements for the provers, from the spec's numbered rules. -/

open Sys2Proof Sys2Proof.Machine

/-! ### The selector and the request -/

/-- R67, R68: the selector map, all sixteen values. -/
def Obligations.SelectorMap : Prop :=
  decodeSelector 0b0000#4 = some ⟨.encode, .w16, .unsigned⟩ ∧
  decodeSelector 0b0001#4 = some ⟨.encode, .w16, .signed⟩ ∧
  decodeSelector 0b0010#4 = some ⟨.encode, .w32, .unsigned⟩ ∧
  decodeSelector 0b0011#4 = some ⟨.encode, .w32, .signed⟩ ∧
  decodeSelector 0b0100#4 = some ⟨.encode, .w64, .unsigned⟩ ∧
  decodeSelector 0b0101#4 = some ⟨.encode, .w64, .signed⟩ ∧
  decodeSelector 0b0110#4 = none ∧
  decodeSelector 0b0111#4 = none ∧
  decodeSelector 0b1000#4 = some ⟨.decode, .w16, .unsigned⟩ ∧
  decodeSelector 0b1001#4 = some ⟨.decode, .w16, .signed⟩ ∧
  decodeSelector 0b1010#4 = some ⟨.decode, .w32, .unsigned⟩ ∧
  decodeSelector 0b1011#4 = some ⟨.decode, .w32, .signed⟩ ∧
  decodeSelector 0b1100#4 = some ⟨.decode, .w64, .unsigned⟩ ∧
  decodeSelector 0b1101#4 = some ⟨.decode, .w64, .signed⟩ ∧
  decodeSelector 0b1110#4 = none ∧
  decodeSelector 0b1111#4 = none

/-- R70: every selector decodes to exactly the operation whose code it is, or is one of the reserved values of R69. -/
def Obligations.SelectorDecodeTotal : Prop :=
  (∀ op o, decodeSelector op = some o ↔ encodeSelector o = op) ∧
  (∀ op, decodeSelector op = none ↔ op.extractLsb' 1 2 = 0b11#2)

/-- Request images written out from R66, R67 and R71 decode to the requests they stand for. The byte image itself is the
model's (log entry 3). -/
def Obligations.RequestImagesDecode : Prop :=
  decodeImage 0x00#8 [0xFE#8, 0xCA#8] = .ok (.encU16 0xCAFE#16) ∧
  decodeImage 0x01#8 [0xD4#8, 0xFE#8] = .ok (.encS16 0xFED4#16) ∧
  decodeImage 0x02#8 [0x2C#8, 0x01#8, 0x00#8, 0x80#8] = .ok (.encU32 0x8000012C#32) ∧
  decodeImage 0x03#8 [0xFF#8, 0xFF#8, 0xFF#8, 0x7F#8] = .ok (.encS32 0x7FFFFFFF#32) ∧
  decodeImage 0x04#8 [1#8, 2#8, 3#8, 4#8, 5#8, 6#8, 7#8, 8#8] = .ok (.encU64 0x0807060504030201#64) ∧
  decodeImage 0x05#8 [0#8, 0#8, 0#8, 0#8, 0#8, 0#8, 0#8, 0x80#8] = .ok (.encS64 0x8000000000000000#64) ∧
  decodeImage 0x08#8 [0xAC#8, 0x02#8] = .ok (.decU16 [0xAC#8, 0x02#8]) ∧
  decodeImage 0x09#8 [0xD7#8, 0x04#8] = .ok (.decS16 [0xD7#8, 0x04#8]) ∧
  decodeImage 0x0A#8 [] = .ok (.decU32 []) ∧
  decodeImage 0x0B#8 [0x80#8] = .ok (.decS32 [0x80#8]) ∧
  decodeImage 0x0C#8 [0xFE#8, 0x95#8, 0x03#8] = .ok (.decU64 [0xFE#8, 0x95#8, 0x03#8]) ∧
  decodeImage 0x0D#8 [0x01#8, 0x00#8] = .ok (.decS64 [0x01#8, 0x00#8]) ∧
  decodeImage 0x06#8 [] = .error (.reservedSelector 0b0110#4)

/-- Decoding an encoded instruction gives it back, as a byte image and as a table word, with every operand at every value: no
bit of an operand is dropped. The layout is the model's (log entry 3). -/
def Obligations.ImageRoundTrip : Prop :=
  ∀ i : Instr,
    decodeImage (encodeImage i).1 (encodeImage i).2 = .ok i ∧
    decodeTableWord (8 * ((encodeImage i).2.length + 1)) (leValue ((encodeImage i).1 :: (encodeImage i).2)) = some i

/-- R21, R24: in `Idle`, a step takes the oldest transaction-level request off the interface and runs its operation. -/
def Obligations.StepRunsRequest : Prop :=
  ∀ (s : State) (r : Request) (rest : List Request) (i : Instr),
    s.resetLine = false → s.phase = .idle → s.requests = r :: rest → r.level = .transaction →
    decodeRequest r.op r.operand = .ok i →
    step s = exec i { s with requests := rest }

/-- R181: acceptance of a streaming-level request. A reserved selector is refused; an encode latches the selector and loads
`REM` with the widened operand, zigzag-mapped when `OP[0] = 1`; a decode latches the selector and starts from `ACC = 0`, `IDX
= 0` and `Reading`. Nothing else changes. -/
def Obligations.AcceptWritesStart : Prop :=
  ∀ (s : State) (op : Sel) (x : Operand) (rest : List Request),
    s.resetLine = false → s.phase = .idle → s.requests = ⟨.streaming, op, x⟩ :: rest →
    (op.extractLsb' 1 2 = 0b11#2 → step s = .refused (.reservedSelector op)) ∧
    (∀ v, x = .value16 v → op = 0b0000#4 →
      step s = .next { s with requests := rest, op := op, rem := v.setWidth 128, phase := .enc }) ∧
    (∀ v, x = .value16 v → op = 0b0001#4 →
      step s = .next { s with requests := rest, op := op, rem := zigzagFwd (v.signExtend 128), phase := .enc }) ∧
    (∀ v, x = .value32 v → op = 0b0010#4 →
      step s = .next { s with requests := rest, op := op, rem := v.setWidth 128, phase := .enc }) ∧
    (∀ v, x = .value32 v → op = 0b0011#4 →
      step s = .next { s with requests := rest, op := op, rem := zigzagFwd (v.signExtend 128), phase := .enc }) ∧
    (∀ v, x = .value64 v → op = 0b0100#4 →
      step s = .next { s with requests := rest, op := op, rem := v.setWidth 128, phase := .enc }) ∧
    (∀ v, x = .value64 v → op = 0b0101#4 →
      step s = .next { s with requests := rest, op := op, rem := zigzagFwd (v.signExtend 128), phase := .enc }) ∧
    (op.getLsbD 3 = true → op.extractLsb' 1 2 ≠ 0b11#2 → x = .offered →
      step s = .next { s with requests := rest, op := op, acc := 0, idx := 0, dstate := .reading, phase := .dec })

/-- R69: a reserved selector names no operation, and a request with it is refused by name, at either level and with any
operand. -/
def Obligations.ReservedSelectorRefused : Prop :=
  ∀ (s : State) (lvl : Level) (op : Sel) (x : Operand) (rest : List Request),
    s.resetLine = false → s.phase = .idle → s.requests = ⟨lvl, op, x⟩ :: rest → op.extractLsb' 1 2 = 0b11#2 →
    decodeSelector op = none ∧ step s = .refused (.reservedSelector op)

/-- R22, R23, R160: a request that is well formed is served by the next step; one whose selector is admitted and whose operand
has another form is refused under the model's own name (log entry 6). -/
def Obligations.WellFormedRequestServed : Prop :=
  ∀ (s : State) (r : Request) (rest : List Request),
    s.resetLine = false → s.phase = .idle → s.requests = r :: rest →
    (r.wellFormed = true → ∃ t, step s = .next t ∧ t.requests = rest) ∧
    (selectorAdmitted r.op = true → operandFits r = false → step s = .refused (.operandForm r.op))

/-- R162, R191: what a refusal leaves, as the model shows it to the host (log entry 11): `PHASE` was and stays `Idle`, no register
is written, the request is gone and the mark is set; no later step and no later refusal clears the mark. -/
def Obligations.RefusalMarkKept : Prop :=
  (∀ (s : State) (why : Refusal), step s = .refused why →
    s.phase = .idle ∧ s.requests ≠ [] ∧ proceed s = some { s with requests := s.requests.tail, refusalMark := true }) ∧
  ∀ s t : State, s.refusalMark = true → proceed s = some t → t.refusalMark = true

/-- R24, R188: while an operation is in progress a presented request is held: no step takes or refuses one, and presenting one
changes nothing of the operation. Asked to run an operation then, the dispatch holds its request
(log entry 14). -/
def Obligations.BusyHoldsRequests : Prop :=
  ∀ s : State, s.phase ≠ .idle →
    (∀ i, exec i s = .next { s with requests := encode i :: s.requests }) ∧
    (s.resetLine = false →
      (∀ why, step s ≠ .refused why) ∧
      (∀ t, step s = .next t → t.requests = s.requests ∧
        ∀ r, step { s with requests := s.requests ++ [r] } = .next { t with requests := t.requests ++ [r] }))

/-! ### The encode operations -/

/-- R120: `ENC.U16`. In `Idle` it completes: the selector is latched, the bytes of `EncodeAcc` of the zero-extended operand
are emitted, and the block is `Idle` again; `REM` was used (OperationFrame says what is left in it), and every other piece of
state is as before. One to three bytes; the rule's corner cases. -/
def Obligations.EncU16Emits : Prop :=
  (∀ (v : BitVec 16) (s : State), s.phase = .idle →
    ∃ r, exec (.encU16 v) s = .next { s with
      op := 0b0000#4
      rem := r
      phase := .idle
      out := s.out ++ emissions (encodeAcc (v.setWidth 128)) }) ∧
  (∀ v : BitVec 16, 1 ≤ (encodeAcc (v.setWidth 128)).length ∧ (encodeAcc (v.setWidth 128)).length ≤ 3) ∧
  (∀ c ∈ ([(0#16, [0x00#8]), (127#16, [0x7F#8]), (128#16, [0x80#8, 0x01#8]), (16383#16, [0xFF#8, 0x7F#8]),
      (16384#16, [0x80#8, 0x80#8, 0x01#8]), (65535#16, [0xFF#8, 0xFF#8, 0x03#8]),
      (0xCAFE#16, [0xFE#8, 0x95#8, 0x03#8]), (300#16, [0xAC#8, 0x02#8])] : List (BitVec 16 × List Byte)),
    encodeAcc (c.1.setWidth 128) = c.2)

/-- R121: `ENC.S16`. As R120, from the zigzag of the sign-extended operand, which lies in `U_16`. -/
def Obligations.EncS16Emits : Prop :=
  (∀ (v : BitVec 16) (s : State), s.phase = .idle →
    ∃ r, exec (.encS16 v) s = .next { s with
      op := 0b0001#4
      rem := r
      phase := .idle
      out := s.out ++ emissions (encodeAcc (zigzagFwd (v.signExtend 128))) }) ∧
  (∀ v : BitVec 16, (zigzagFwd (v.signExtend 128)).toNat < 2 ^ 16 ∧
    1 ≤ (encodeAcc (zigzagFwd (v.signExtend 128))).length ∧ (encodeAcc (zigzagFwd (v.signExtend 128))).length ≤ 3) ∧
  (∀ c ∈ ([(0, [0x00#8]), (-1, [0x01#8]), (1, [0x02#8]), (63, [0x7E#8]), (-64, [0x7F#8]), (64, [0x80#8, 0x01#8]),
      (-65, [0x81#8, 0x01#8]), (32767, [0xFE#8, 0xFF#8, 0x03#8]), (-32768, [0xFF#8, 0xFF#8, 0x03#8]),
      (-300, [0xD7#8, 0x04#8])] : List (Int × List Byte)),
    encodeAcc (zigzagFwd ((BitVec.ofInt 16 c.1).signExtend 128)) = c.2)

/-- R122: `ENC.U32`. -/
def Obligations.EncU32Emits : Prop :=
  (∀ (v : BitVec 32) (s : State), s.phase = .idle →
    ∃ r, exec (.encU32 v) s = .next { s with
      op := 0b0010#4
      rem := r
      phase := .idle
      out := s.out ++ emissions (encodeAcc (v.setWidth 128)) }) ∧
  (∀ v : BitVec 32, 1 ≤ (encodeAcc (v.setWidth 128)).length ∧ (encodeAcc (v.setWidth 128)).length ≤ 5) ∧
  (∀ c ∈ ([(0, [0x00#8]), (2 ^ 28 - 1, [0xFF#8, 0xFF#8, 0xFF#8, 0x7F#8]),
      (2 ^ 28, [0x80#8, 0x80#8, 0x80#8, 0x80#8, 0x01#8]), (2 ^ 31, [0x80#8, 0x80#8, 0x80#8, 0x80#8, 0x08#8]),
      (2 ^ 32 - 1, [0xFF#8, 0xFF#8, 0xFF#8, 0xFF#8, 0x0F#8]), (300, [0xAC#8, 0x02#8])] : List (Nat × List Byte)),
    encodeAcc ((BitVec.ofNat 32 c.1).setWidth 128) = c.2)

/-- R123: `ENC.S32`. -/
def Obligations.EncS32Emits : Prop :=
  (∀ (v : BitVec 32) (s : State), s.phase = .idle →
    ∃ r, exec (.encS32 v) s = .next { s with
      op := 0b0011#4
      rem := r
      phase := .idle
      out := s.out ++ emissions (encodeAcc (zigzagFwd (v.signExtend 128))) }) ∧
  (∀ v : BitVec 32, (zigzagFwd (v.signExtend 128)).toNat < 2 ^ 32 ∧
    1 ≤ (encodeAcc (zigzagFwd (v.signExtend 128))).length ∧ (encodeAcc (zigzagFwd (v.signExtend 128))).length ≤ 5) ∧
  (∀ c ∈ ([(0, [0x00#8]), (-1, [0x01#8]), (2 ^ 31 - 1, [0xFE#8, 0xFF#8, 0xFF#8, 0xFF#8, 0x0F#8]),
      (-2 ^ 31, [0xFF#8, 0xFF#8, 0xFF#8, 0xFF#8, 0x0F#8]), (-300, [0xD7#8, 0x04#8])] : List (Int × List Byte)),
    encodeAcc (zigzagFwd ((BitVec.ofInt 32 c.1).signExtend 128)) = c.2)

/-- R124: `ENC.U64`. -/
def Obligations.EncU64Emits : Prop :=
  (∀ (v : BitVec 64) (s : State), s.phase = .idle →
    ∃ r, exec (.encU64 v) s = .next { s with
      op := 0b0100#4
      rem := r
      phase := .idle
      out := s.out ++ emissions (encodeAcc (v.setWidth 128)) }) ∧
  (∀ v : BitVec 64, 1 ≤ (encodeAcc (v.setWidth 128)).length ∧ (encodeAcc (v.setWidth 128)).length ≤ 10) ∧
  (∀ c ∈ ([(0, [0x00#8]), (2 ^ 63 - 1, List.replicate 8 0xFF#8 ++ [0x7F#8]),
      (2 ^ 63, List.replicate 9 0x80#8 ++ [0x01#8]), (2 ^ 64 - 1, List.replicate 9 0xFF#8 ++ [0x01#8]),
      (0xCAFE, [0xFE#8, 0x95#8, 0x03#8])] : List (Nat × List Byte)),
    encodeAcc ((BitVec.ofNat 64 c.1).setWidth 128) = c.2)

/-- R125: `ENC.S64`. -/
def Obligations.EncS64Emits : Prop :=
  (∀ (v : BitVec 64) (s : State), s.phase = .idle →
    ∃ r, exec (.encS64 v) s = .next { s with
      op := 0b0101#4
      rem := r
      phase := .idle
      out := s.out ++ emissions (encodeAcc (zigzagFwd (v.signExtend 128))) }) ∧
  (∀ v : BitVec 64, (zigzagFwd (v.signExtend 128)).toNat < 2 ^ 64 ∧
    1 ≤ (encodeAcc (zigzagFwd (v.signExtend 128))).length ∧ (encodeAcc (zigzagFwd (v.signExtend 128))).length ≤ 10) ∧
  (∀ c ∈ ([(0, [0x00#8]), (-1, [0x01#8]), (2 ^ 63 - 1, 0xFE#8 :: (List.replicate 8 0xFF#8 ++ [0x01#8])),
      (-2 ^ 63, List.replicate 9 0xFF#8 ++ [0x01#8]), (-300, [0xD7#8, 0x04#8])] : List (Int × List Byte)),
    encodeAcc (zigzagFwd ((BitVec.ofInt 64 c.1).signExtend 128)) = c.2)

/-! ### The decode operations -/

/-- R142: `DEC.U16`. In `Idle` it completes on every window: the selector is latched, the low 16 bits of `DecodeAcc` are
delivered, and the block is `Idle` again; `ACC`, `IDX` and `DSTATE` were used (OperationFrame says what is left in them), and
every other piece of state is as before. The rule's corner cases. -/
def Obligations.DecU16Responds : Prop :=
  (∀ (w : List Byte) (s : State), s.phase = .idle →
    ∃ z i d, exec (.decU16 w) s = .next { s with
      op := 0b1000#4, acc := z, idx := i, dstate := d, phase := .idle
      out := s.out ++ [.respond (.v16 ((decodeAcc 128 w).1.setWidth 16))] }) ∧
  (∀ c ∈ ([([], 0), ([0x80#8], 0), ([0xAC#8], 44), ([0x80#8, 0x00#8], 0), ([0xFF#8, 0xFF#8, 0x03#8], 65535),
      ([0x80#8, 0x80#8, 0x04#8], 0), ([0xFF#8, 0xFF#8, 0x07#8], 65535), ([0xAC#8, 0x02#8, 0x01#8], 300),
      ([0xFE#8, 0x95#8, 0x03#8], 0xCAFE)] : List (List Byte × Nat)),
    ((decodeAcc 128 c.1).1.setWidth 16).toNat = c.2)

/-- R143: `DEC.S16`: the inverse zigzag of the whole accumulator, then the low 16 bits. -/
def Obligations.DecS16Responds : Prop :=
  (∀ (w : List Byte) (s : State), s.phase = .idle →
    ∃ z i d, exec (.decS16 w) s = .next { s with
      op := 0b1001#4, acc := z, idx := i, dstate := d, phase := .idle
      out := s.out ++ [.respond (.v16 ((zigzagInv (decodeAcc 128 w).1).setWidth 16))] }) ∧
  (∀ c ∈ ([([], 0), ([0x01#8], -1), ([0x02#8], 1), ([0x7F#8], -64), ([0xFF#8], -64), ([0xFE#8, 0xFF#8, 0x03#8], 32767),
      ([0xFF#8, 0xFF#8, 0x03#8], -32768), ([0x80#8, 0x80#8, 0x04#8], -32768), ([0x81#8, 0x80#8, 0x04#8], 32767),
      ([0xD7#8, 0x04#8], -300)] : List (List Byte × Int)),
    ((zigzagInv (decodeAcc 128 c.1).1).setWidth 16).toInt = c.2)

/-- R144: `DEC.U32`. -/
def Obligations.DecU32Responds : Prop :=
  (∀ (w : List Byte) (s : State), s.phase = .idle →
    ∃ z i d, exec (.decU32 w) s = .next { s with
      op := 0b1010#4, acc := z, idx := i, dstate := d, phase := .idle
      out := s.out ++ [.respond (.v32 ((decodeAcc 128 w).1.setWidth 32))] }) ∧
  (∀ c ∈ ([([], 0), ([0xFF#8, 0xFF#8, 0xFF#8, 0xFF#8, 0x0F#8], 4294967295),
      ([0xFF#8, 0xFF#8, 0xFF#8, 0xFF#8, 0x1F#8], 4294967295), ([0x80#8, 0x80#8, 0x80#8, 0x80#8, 0x10#8], 0),
      ([0xFF#8, 0xFF#8], 16383), ([0xAC#8, 0x02#8], 300)] : List (List Byte × Nat)),
    ((decodeAcc 128 c.1).1.setWidth 32).toNat = c.2)

/-- R145: `DEC.S32`. -/
def Obligations.DecS32Responds : Prop :=
  (∀ (w : List Byte) (s : State), s.phase = .idle →
    ∃ z i d, exec (.decS32 w) s = .next { s with
      op := 0b1011#4, acc := z, idx := i, dstate := d, phase := .idle
      out := s.out ++ [.respond (.v32 ((zigzagInv (decodeAcc 128 w).1).setWidth 32))] }) ∧
  (∀ c ∈ ([([], 0), ([0xFE#8, 0xFF#8, 0xFF#8, 0xFF#8, 0x0F#8], 2147483647),
      ([0xFF#8, 0xFF#8, 0xFF#8, 0xFF#8, 0x0F#8], -2147483648),
      ([0x80#8, 0x80#8, 0x80#8, 0x80#8, 0x10#8], -2147483648), ([0xD7#8, 0x04#8], -300)] : List (List Byte × Int)),
    ((zigzagInv (decodeAcc 128 c.1).1).setWidth 32).toInt = c.2)

/-- R146: `DEC.U64`. -/
def Obligations.DecU64Responds : Prop :=
  (∀ (w : List Byte) (s : State), s.phase = .idle →
    ∃ z i d, exec (.decU64 w) s = .next { s with
      op := 0b1100#4, acc := z, idx := i, dstate := d, phase := .idle
      out := s.out ++ [.respond (.v64 ((decodeAcc 128 w).1.setWidth 64))] }) ∧
  (∀ c ∈ ([([], 0), (List.replicate 9 0xFF#8 ++ [0x01#8], 2 ^ 64 - 1), (List.replicate 9 0xFF#8 ++ [0x03#8], 2 ^ 64 - 1),
      (List.replicate 9 0x80#8 ++ [0x02#8], 0), (List.replicate 19 0x80#8 ++ [0x01#8], 0),
      ([0xFE#8, 0x95#8, 0x03#8], 0xCAFE)] : List (List Byte × Nat)),
    ((decodeAcc 128 c.1).1.setWidth 64).toNat = c.2)

/-- R147: `DEC.S64`. -/
def Obligations.DecS64Responds : Prop :=
  (∀ (w : List Byte) (s : State), s.phase = .idle →
    ∃ z i d, exec (.decS64 w) s = .next { s with
      op := 0b1101#4, acc := z, idx := i, dstate := d, phase := .idle
      out := s.out ++ [.respond (.v64 ((zigzagInv (decodeAcc 128 w).1).setWidth 64))] }) ∧
  (∀ c ∈ ([([], 0), (0xFE#8 :: (List.replicate 8 0xFF#8 ++ [0x01#8]), 2 ^ 63 - 1),
      (List.replicate 9 0xFF#8 ++ [0x01#8], -2 ^ 63), (List.replicate 9 0x80#8 ++ [0x02#8], -2 ^ 63),
      (List.replicate 9 0x80#8 ++ [0x04#8], 0), ([0xD7#8, 0x04#8], -300)] : List (List Byte × Int)),
    ((zigzagInv (decodeAcc 128 c.1).1).setWidth 64).toInt = c.2)

/-- The frame of the twelve operations: what the host has placed on the interface and the marks of the run stay; an encode leaves
the decoder's registers and a decode leaves the encoder's. What a whole operation leaves in the registers it used is the
model's deduction (log entry 5): what the steps of R91 and R92 leave there. -/
def Obligations.OperationFrame : Prop :=
  ∀ (i : Instr) (s t : State), s.phase = .idle → exec i s = .next t →
    t.phase = .idle ∧ t.op = i.selector ∧ t.requests = s.requests ∧ t.items = s.items ∧
    t.resetLine = s.resetLine ∧ t.refusalMark = s.refusalMark ∧ t.abandoned = s.abandoned ∧
    (i.operation.dir = .encode → t.acc = s.acc ∧ t.idx = s.idx ∧ t.dstate = s.dstate ∧
      ∃ x, operandRem i.operation i.operand = some x ∧ t.rem = x >>> (7 * ((encodeAcc x).length - 1))) ∧
    (i.operation.dir = .decode → t.rem = s.rem ∧ t.dstate = .terminated ∧
      ∃ w, i.operand = .window w ∧ t.acc = (decodeAcc 128 w).1 ∧ t.idx = (decodeAcc 128 w).2)

/-- R160: the block raises no exception. Every operation gets its response in `Idle`, whatever its operand, and no state that
meets the invariant has a step that faults. -/
def Obligations.NoException : Prop :=
  (∀ (i : Instr) (s : State), s.phase = .idle →
    ∃ (t : State) (l : List Output), exec i s = .next t ∧ t.phase = .idle ∧ l ≠ [] ∧ t.out = s.out ++ l) ∧
  (∀ s : State, Inv s → ∀ f, step s ≠ .fault f)

/-! ### The streaming steps -/

/-- R91: one encoder step emits one byte; from `REM = x0` the steps emit exactly the bytes of `EncodeAcc(x0)`, one per step,
the step count is its length, and only the last step returns to `Idle`. Nothing but `REM`, `PHASE` and the bytes sent changes.
That no emission waits for the host to take the byte is the model's (DESIGN CHOICE, log entry 12). -/
def Obligations.EncoderSteps : Prop :=
  ∀ s : State, s.phase = .enc → s.resetLine = false →
    (127 < s.rem.toNat →
      step s = .next { s with
        rem := s.rem >>> 7, out := s.out ++ [.emit ((s.rem.setWidth 7).setWidth 8 ||| 0x80#8) false] }) ∧
    (s.rem.toNat ≤ 127 →
      step s = .next { s with phase := .idle, out := s.out ++ [.emit (s.rem.setWidth 8) true] }) ∧
    (∀ k < (encodeAcc s.rem).length, ∃ t : State, runSteps k s = .next t ∧
      t.phase = .enc ∧ t.out = s.out ++ (emissions (encodeAcc s.rem)).take k) ∧
    runSteps (encodeAcc s.rem).length s = .next { s with
      phase := .idle
      rem := s.rem >>> (7 * ((encodeAcc s.rem).length - 1))
      out := s.out ++ emissions (encodeAcc s.rem) }

/-- R92: one decoder step. A byte is accumulated at the index; with `C = 1` the decode stays in `Reading`, with `C = 0` it
terminates and responds; `in_eow` terminates and responds with what was accumulated. With nothing offered R92 defines no step
and the block waits; that the model's step then answers the same state is its own (DEDUCED, log entry 15). -/
def Obligations.DecoderSteps : Prop :=
  ∀ s : State, s.phase = .dec → s.dstate = .reading → s.resetLine = false → s.op.extractLsb' 1 2 ≠ 0b11#2 →
    (∀ b rest, s.items = .inByte b :: rest → b.getLsbD 7 = true →
      step s = .next { s with
        items := rest, acc := s.acc ||| (b.setWidth 7).setWidth 128 <<< (7 * s.idx), idx := s.idx + 1 }) ∧
    (∀ b rest, s.items = .inByte b :: rest → b.getLsbD 7 = false →
      ∃ v, decodeResult s.op (s.acc ||| (b.setWidth 7).setWidth 128 <<< (7 * s.idx)) = some v ∧
        step s = .next { s with
          items := rest, acc := s.acc ||| (b.setWidth 7).setWidth 128 <<< (7 * s.idx), idx := s.idx + 1
          dstate := .terminated, phase := .idle, out := s.out ++ [.respond v] }) ∧
    (∀ rest, s.items = .inEow :: rest →
      ∃ v, decodeResult s.op s.acc = some v ∧
        step s = .next { s with
          items := rest, dstate := .terminated, phase := .idle, out := s.out ++ [.respond v] }) ∧
    (s.items = [] → step s = .next s)

/-- R186: a streaming decode ends only on a terminator byte or on `in_eow`; while the host offers neither, the block waits,
however long, and accepts no other request. That every step of the wait answers the same state is the model's way to show it
(DEDUCED, log entry 15). -/
def Obligations.DecodeWaitsForItem : Prop :=
  (∀ (s : State) (k : Nat), s.phase = .dec → s.dstate = .reading → s.resetLine = false → s.items = [] →
    runSteps k s = .next s) ∧
  (∀ s t : State, s.phase = .dec → s.resetLine = false → step s = .next t → t.phase ≠ .dec →
    ∃ rest, s.items = .inEow :: rest ∨ ∃ b, s.items = .inByte b :: rest ∧ b.getLsbD 7 = false)

/-- R93, encode half: a streaming-level encode request, from its acceptance to its last byte, ends in exactly the state the
transaction-level operation ends in. The spec derives this from R85, R91 and R92; what a transaction-level operation leaves in
the registers is the model's (DEDUCED, log entry 5). -/
def Obligations.StreamingEncodeAgrees : Prop :=
  ∀ (i : Instr) (s : State) (rest : List Request),
    i.operation.dir = .encode → s.resetLine = false → s.phase = .idle →
    s.requests = ⟨.streaming, i.selector, i.operand⟩ :: rest →
    ∃ (k : Nat) (t : State), exec i { s with requests := rest } = .next t ∧
      runSteps k s = .next t

/-- R93, decode half: offered the items of a window, a streaming-level decode consumes exactly the items up to the terminator
(all of them and `in_eow` on a short read) and ends in the state the transaction-level operation ends in. The spec derives
this from R85, R91 and R92; what a transaction-level operation leaves in the registers is the model's (DEDUCED, log entry 5),
and so is that the rest of the items stay offered (DESIGN CHOICE, log entry 13). -/
def Obligations.StreamingDecodeAgrees : Prop :=
  ∀ (i : Instr) (w : List Byte) (s : State) (rest : List Request) (more : List Item),
    i.operand = .window w → s.resetLine = false → s.phase = .idle →
    s.requests = ⟨.streaming, i.selector, .offered⟩ :: rest → s.items = windowItems w ++ more →
    ∃ t : State, exec i { s with requests := rest } = .next t ∧
      t.acc = (decodeAcc 128 w).1 ∧ t.idx = (decodeAcc 128 w).2 ∧
      runSteps (1 + if shortRead w then w.length + 1 else (decodeAcc 128 w).2) s =
        .next { t with items := s.items.drop (if shortRead w then w.length + 1 else (decodeAcc 128 w).2) }

/-- What a step leaves to others. What has been sent never changes, every step only adds to it (R46); at most one item is
consumed, and only for a decode in progress (R23, R190); at most the oldest request is taken, and only in `Idle` (R24). That
the items left stay offered from one decode to the next is the model's (DESIGN CHOICE, log entry 13), and so is all of the
reset case: it comes before any other step and leaves requests, items, what was sent and the refusal mark (log entry 4), and
it marks an operation it abandons (DEDUCED, log entry 19). -/
def Obligations.StepKeepsInterface : Prop :=
  ∀ s t : State, step s = .next t →
    (∃ l, t.out = s.out ++ l) ∧
    (t.items = s.items ∨ (s.phase = .dec ∧ s.resetLine = false ∧ ∃ it, s.items = it :: t.items)) ∧
    (t.requests = s.requests ∨ (s.phase = .idle ∧ s.resetLine = false ∧ ∃ r, s.requests = r :: t.requests)) ∧
    t.refusalMark = s.refusalMark ∧ t.abandoned = (s.abandoned || (s.resetLine && s.phase != .idle))

/-! ### Reset, hidden state, invariant, independence -/

/-- R180: reset, at any time, returns the block to `Idle` and delivers nothing; the request of an operation it abandons never
ends, so no run that goes on from there has ended (R191). What the other registers hold after a reset, that the interface is
left as it is, and the mark that keeps the abandoned operation are the model's (log entries 1, 4 and 19). -/
def Obligations.ResetAbandons : Prop :=
  State.reset.phase = .idle ∧
  (∀ s : State, s.resetLine = true →
    step s = .next { s with
      phase := .idle, op := 0, rem := 0, acc := 0, idx := 0, dstate := .reading, resetLine := false
      abandoned := s.abandoned || s.phase != .idle }) ∧
  ∀ s t : State, s.abandoned = true → proceed s = some t → t.abandoned = true ∧ ¬ Ended t

/-- R36: in `Idle` a read of any register that holds no value is a fault, and no step of any state reads one. -/
def Obligations.UnsetReadsFault : Prop :=
  (∀ s : State, s.phase = .idle →
    readOp s = .error (.unsetRegisterRead .op) ∧ readRem s = .error (.unsetRegisterRead .rem) ∧
    readAcc s = .error (.unsetRegisterRead .acc) ∧ readIdx s = .error (.unsetRegisterRead .idx) ∧
    readDState s = .error (.unsetRegisterRead .dstate)) ∧
  (∀ (s : State) (r : RegName), step s ≠ .fault (.unsetRegisterRead r))

/-- The invariant holds right after reset. -/
def Obligations.ResetMeetsInvariant : Prop := Inv State.reset

/-- Every step keeps the invariant: the latched selector fits the phase, `REM` stays in the domain of the operation's width
(R30, R102), a decode in progress is `Reading` and its accumulator holds only bits of the bytes consumed (R34, R85), and every
end marker repeats the continuation bit (R27). -/
def Obligations.StepKeepsInvariant : Prop :=
  ∀ s t : State, Inv s → step s = .next t → Inv t

/-- R20, R161: the response of an operation is a function of its request alone: from any two idle states it sends the same. -/
def Obligations.ResponseFromRequestAlone : Prop :=
  ∀ (i : Instr) (s₁ s₂ : State), s₁.phase = .idle → s₂.phase = .idle →
    ∃ (t₁ t₂ : State) (l : List Output),
      exec i s₁ = .next t₁ ∧ exec i s₂ = .next t₂ ∧ t₁.out = s₁.out ++ l ∧ t₂.out = s₂.out ++ l

/-- R20, R181: nothing of an earlier operation reaches a later one: two idle blocks given the same requests and items,
whatever their registers hold, send the same, step for step, for ever. -/
def Obligations.NoStateAcrossOperations : Prop :=
  ∀ (k : Nat) (s₁ s₂ t₁ : State), s₁.phase = .idle → s₂.phase = .idle →
    s₁.requests = s₂.requests → s₁.items = s₂.items → s₁.resetLine = s₂.resetLine →
    runSteps k s₁ = .next t₁ →
    ∃ (t₂ : State) (l : List Output), runSteps k s₂ = .next t₂ ∧
      t₁.out = s₁.out ++ l ∧ t₂.out = s₂.out ++ l ∧ t₁.items = t₂.items ∧ t₁.requests = t₂.requests

/-- R168: stepping instance `k` gives it the state its own step gives, or the one a refusal leaves (R162), and leaves every
other as it was; an instance that meets the invariant can always be stepped, whatever the others do; and the order in which
two are stepped makes no difference. That one instance is stepped at a time is the model's (DEDUCED, log entry 16), and so is
the state after a refusal (DEDUCED, log entry 11). -/
def Obligations.InstancesIndependent : Prop :=
  (∀ (k : Nat) (bs : List State) (s : State), bs[k]? = some s →
    (∀ t, step s = .next t → stepInstance k bs = some (bs.set k t)) ∧
    (∀ why, step s = .refused why →
      stepInstance k bs = some (bs.set k { s with requests := s.requests.tail, refusalMark := true })) ∧
    (Inv s → ∃ cs, stepInstance k bs = some cs)) ∧
  (∀ (k : Nat) (bs cs : List State), stepInstance k bs = some cs →
    cs.length = bs.length ∧ ∀ j, j ≠ k → cs[j]? = bs[j]?) ∧
  (∀ (j k : Nat) (bs : List State), j ≠ k →
    (stepInstance j bs).bind (stepInstance k) = (stepInstance k bs).bind (stepInstance j))

/-! ### The codec -/

/-- R81, R82: at least one byte; a value up to 127 is its own single byte, and 0 is `[00]`. Byte `j` carries bits `7j+6 : 7j`,
with `C = 1` on every byte but the last; the value is below `2^(7n)`; the byte 0 occurs only as the whole of the encoding of
0. The spec derives this from R80. -/
def Obligations.EncodeShape : Prop :=
  ∀ (A : Nat) (x : BitVec A),
    1 ≤ (encodeAcc x).length ∧ (x.toNat ≤ 127 → encodeAcc x = [x.setWidth 8]) ∧ encodeAcc (0#A) = [0x00#8] ∧
    (∀ j, j + 1 < (encodeAcc x).length →
      (encodeAcc x)[j]? = some (0x80#8 ||| (x.extractLsb' (7 * j) 7).setWidth 8)) ∧
    (encodeAcc x)[(encodeAcc x).length - 1]? =
      some ((x.extractLsb' (7 * ((encodeAcc x).length - 1)) 7).setWidth 8) ∧
    x.toNat < 2 ^ (7 * (encodeAcc x).length) ∧
    (1 < (encodeAcc x).length → (encodeAcc x).getLast? ≠ some 0x00#8) ∧
    (0x00#8 ∈ encodeAcc x → x = 0 ∧ encodeAcc x = [0x00#8])

/-- R83: the length: 1 below 128, else the least `n` with `x < 128^n`, which is `ceil(bitlength / 7)`; non-decreasing, one
more exactly at each `128^k`; and no terminated varint of the same value is shorter. The spec derives this from R82. -/
def Obligations.EncodeLength : Prop :=
  ∀ (A : Nat) (x : BitVec A),
    (x.toNat < 128 → (encodeAcc x).length = 1) ∧
    (∀ n, 1 ≤ n → ((encodeAcc x).length ≤ n ↔ x.toNat < 128 ^ n)) ∧
    (128 ≤ x.toNat → (encodeAcc x).length = (x.toNat.log2 + 1 + 6) / 7) ∧
    (∀ y : BitVec A, x.toNat ≤ y.toNat → (encodeAcc x).length ≤ (encodeAcc y).length) ∧
    (∀ k, 1 ≤ k → x.toNat = 128 ^ k → (encodeAcc x).length = k + 1 ∧ (encodeAcc (x - 1)).length = k) ∧
    (∀ (front : List Byte) (b : Byte), (∀ c ∈ front, c.getLsbD 7 = true) → b.getLsbD 7 = false →
      Nat.ofDigits 128 ((front ++ [b]).map fun c => (c.setWidth 7).toNat) = x.toNat →
      (encodeAcc x).length ≤ (front ++ [b]).length)

/-- R84: the maximum lengths for operands of the three widths, where they are reached, and the length boundaries. The spec
derives this from R83. -/
def Obligations.EncodeMaximumLengths : Prop :=
  (∀ x : Acc, x.toNat < 2 ^ 16 → (encodeAcc x).length ≤ 3) ∧
  (∀ x : Acc, x.toNat < 2 ^ 32 → (encodeAcc x).length ≤ 5) ∧
  (∀ x : Acc, x.toNat < 2 ^ 64 → (encodeAcc x).length ≤ 10) ∧
  (∀ x : Acc, 2 ^ 14 ≤ x.toNat → x.toNat < 2 ^ 16 → (encodeAcc x).length = 3) ∧
  (∀ x : Acc, 2 ^ 28 ≤ x.toNat → x.toNat < 2 ^ 32 → (encodeAcc x).length = 5) ∧
  (∀ x : Acc, 2 ^ 63 ≤ x.toNat → x.toNat < 2 ^ 64 → (encodeAcc x).length = 10) ∧
  (∀ (x : Acc) (k : Nat), 1 ≤ k → k ≤ 10 →
    ((encodeAcc x).length = k ↔ (k = 1 ∨ 2 ^ (7 * (k - 1)) ≤ x.toNat) ∧ x.toNat < 2 ^ (7 * k)))

/-- R61, R85, R86: the value of a decode is the number whose base-128 digits are the payloads of the consumed bytes, least
significant first, cut to the accumulator's width; no shift amount wraps. -/
def Obligations.DecodeValue : Prop :=
  ∀ (A : Nat) (s : List Byte),
    (decodeAcc A s).1.toNat =
      Nat.ofDigits 128 ((s.take (decodeAcc A s).2).map fun b => (b.setWidth 7).toNat) % 2 ^ A

/-- R87: decoding stops at the first byte with `C = 0`; whatever follows it is ignored. -/
def Obligations.TrailingBytesIgnored : Prop :=
  ∀ (A : Nat) (s t : List Byte), (∃ b ∈ s, b.getLsbD 7 = false) → decodeAcc A (s ++ t) = decodeAcc A s

/-- R88: a window with no terminator is consumed whole and gives the OR of all its payloads, each at its place. -/
def Obligations.ShortReadAccumulates : Prop :=
  ∀ A : Nat,
    (∀ s : List Byte, (∀ b ∈ s, b.getLsbD 7 = true) →
      decodeAcc A s =
        ((List.range s.length).foldl (fun z i => z ||| ((s.getD i 0).setWidth 7).setWidth A <<< (7 * i)) 0, s.length)) ∧
    decodeAcc A [] = (0, 0) ∧ decodeAcc A [0x80#8] = (0, 1)

/-- R89: the consumed count is one more than the least index with `C = 0`, or the window's length where there is none. -/
def Obligations.ConsumedCount : Prop :=
  ∀ (A : Nat) (s : List Byte),
    (∀ (front : List Byte) (b : Byte) (rest : List Byte), s = front ++ b :: rest →
      (∀ c ∈ front, c.getLsbD 7 = true) → b.getLsbD 7 = false → (decodeAcc A s).2 = front.length + 1) ∧
    ((∀ b ∈ s, b.getLsbD 7 = true) → (decodeAcc A s).2 = s.length) ∧
    (decodeAcc A s).2 ≤ s.length ∧ ((decodeAcc A s).2 = 0 → s = [])

/-- R63: a longer, non-minimal encoding is legal input and decodes to the same value; the encoder never produces one. -/
def Obligations.NonMinimalAccepted : Prop :=
  ∀ A : Nat,
    (∀ (front : List Byte) (b : Byte), (∀ c ∈ front, c.getLsbD 7 = true) → b.getLsbD 7 = false →
      (decodeAcc A (front ++ [b ||| 0x80#8, 0x00#8])).1 = (decodeAcc A (front ++ [b])).1) ∧
    (∀ (x : BitVec A) (front : List Byte) (b : Byte), encodeAcc x ≠ front ++ [b ||| 0x80#8, 0x00#8])

/-- R90: the codec's round trip: the decode of an encoding, whatever follows it, gives the value and consumes the encoding.
The spec derives this from R82, R85, R86 and R87. -/
def Obligations.CodecRoundTrip : Prop :=
  ∀ (A : Nat) (x : BitVec A) (t : List Byte), decodeAcc A (encodeAcc x ++ t) = (x, (encodeAcc x).length)

/-- R62, R185: framing by scanning for the terminator: the window found is the whole of what a decode of the buffer consumes
and gives the same value; nothing is found exactly where the buffer would be a short read. -/
def Obligations.FramingFindsWindow : Prop :=
  ∀ (A : Nat) (s : List Byte),
    (∀ w rest, frame s = some (w, rest) →
      s = w ++ rest ∧ decodeAcc A s = decodeAcc A w ∧ (decodeAcc A s).2 = w.length ∧ shortRead w = false) ∧
    (frame s = none ↔ shortRead s = true)

/-! ### Zigzag and narrowing -/

/-- R101: the closed form of the forward transform for an operand of a supported width. The spec derives this from R100. -/
def Obligations.ZigzagForwardClosedForm : Prop :=
  ∀ p : Acc, -2 ^ 63 ≤ p.toInt → p.toInt < 2 ^ 63 →
    ((zigzagFwd p).toNat : Int) = if 0 ≤ p.toInt then 2 * p.toInt else -2 * p.toInt - 1

/-- R102: the forward transform maps `S_w` one-to-one onto `U_w`, the non-negative values onto the even ones; and the
transform computed on the w-bit operand alone gives the same. The spec derives this from R101. -/
def Obligations.ZigzagBijection : Prop :=
  ∀ w : Width,
    (∀ v : BitVec w.bits, (zigzagFwd (v.signExtend 128)).toNat < 2 ^ w.bits ∧
      (0 ≤ v.toInt ↔ (zigzagFwd (v.signExtend 128)).toNat % 2 = 0)) ∧
    (∀ v u : BitVec w.bits, zigzagFwd (v.signExtend 128) = zigzagFwd (u.signExtend 128) → v = u) ∧
    (∀ n, n < 2 ^ w.bits → ∃ v : BitVec w.bits, (zigzagFwd (v.signExtend 128)).toNat = n) ∧
    (zigzagFwd ((BitVec.ofInt w.bits (2 ^ (w.bits - 1) - 1)).signExtend 128)).toNat = 2 ^ w.bits - 2 ∧
    (zigzagFwd ((BitVec.ofInt w.bits (-2 ^ (w.bits - 1))).signExtend 128)).toNat = 2 ^ w.bits - 1 ∧
    (∀ v : BitVec w.bits, (zigzagFwd v).setWidth 128 = zigzagFwd (v.signExtend 128))

/-- R104: the closed form of the inverse transform on every accumulator pattern. The spec derives this from R103. -/
def Obligations.ZigzagInverseClosedForm : Prop :=
  ∀ z : Acc,
    (z.toNat % 2 = 0 → 2 * (zigzagInv z).toInt = z.toInt) ∧
    (z.toNat % 2 = 1 → 2 * (zigzagInv z).toInt = -(z.toInt + 1)) ∧
    (z.toNat < 2 ^ 127 → z.toInt = z.toNat)

/-- R105: only the low `w + 1` bits reach a narrowed result, and the kind of the right shift does not matter. The spec derives
this from R103. -/
def Obligations.InverseLowBitsOnly : Prop :=
  (∀ (A w : Nat) (z : BitVec A), w + 1 ≤ A →
    (zigzagInv z).setWidth w = z.extractLsb' 1 w ^^^ (if z.getLsbD 0 then BitVec.allOnes w else 0) ∧
    ((z >>> 1) ^^^ (-(z &&& 1#A))).setWidth w = (zigzagInv z).setWidth w ∧
    (∀ q : Nat, q = z.toNat % 2 ^ (w + 1) →
      (q % 2 = 0 → (zigzagInv z).setWidth w = BitVec.ofInt w (q / 2)) ∧
      (q % 2 = 1 → (zigzagInv z).setWidth w = BitVec.ofInt w (-((q + 1) / 2))))) ∧
  (zigzagInv (65536 : Acc)).setWidth 16 = 0x8000#16 ∧ (zigzagInv (65537 : Acc)).setWidth 16 = 0x7FFF#16

/-- R106: the inverse law, for every operand width below the accumulator's. The spec derives this from R101 and R104. -/
def Obligations.ZigzagInverseLaw : Prop :=
  ∀ (w A : Nat) (p : BitVec w), w < A →
    zigzagInv (zigzagFwd (p.signExtend A)) = p.signExtend A ∧
    (zigzagInv (zigzagFwd (p.signExtend A))).setWidth w = p

/-- R141, R183: narrowing is truncation with no check: an unsigned result is `z mod 2^w`; a signed one is the two's-complement
reading of the low `w` bits of the inverse zigzag. -/
def Obligations.NarrowingTruncates : Prop :=
  ∀ (op : Sel) (z : Acc),
    (∀ v, decodeResult op z = some (.v16 v) →
      op.extractLsb' 1 2 = 0b00#2 ∧ (op.getLsbD 0 = false → v.toNat = z.toNat % 2 ^ 16) ∧
      (op.getLsbD 0 = true → v.toInt = (zigzagInv z).toInt.bmod (2 ^ 16))) ∧
    (∀ v, decodeResult op z = some (.v32 v) →
      op.extractLsb' 1 2 = 0b01#2 ∧ (op.getLsbD 0 = false → v.toNat = z.toNat % 2 ^ 32) ∧
      (op.getLsbD 0 = true → v.toInt = (zigzagInv z).toInt.bmod (2 ^ 32))) ∧
    (∀ v, decodeResult op z = some (.v64 v) →
      op.extractLsb' 1 2 = 0b10#2 ∧ (op.getLsbD 0 = false → v.toNat = z.toNat % 2 ^ 64) ∧
      (op.getLsbD 0 = true → v.toInt = (zigzagInv z).toInt.bmod (2 ^ 64))) ∧
    (decodeResult op z = none ↔ op.extractLsb' 1 2 = 0b11#2)

/-! ### Laws of the operations -/

/-- R126: a signed encode sends what the unsigned encode of the zigzag value sends; and for a value two widths can represent,
the encoding does not depend on the width. The spec derives this from R80, R101 and R102. -/
def Obligations.SignedEncodeIsUnsignedOfZigzag : Prop :=
  ∀ s : State, s.phase = .idle →
    (∀ p : BitVec 16, ∃ t u : State, exec (.encS16 p) s = .next t ∧
      exec (.encU16 ((zigzagFwd (p.signExtend 128)).setWidth 16)) s = .next u ∧ t.out = u.out) ∧
    (∀ p : BitVec 32, ∃ t u : State, exec (.encS32 p) s = .next t ∧
      exec (.encU32 ((zigzagFwd (p.signExtend 128)).setWidth 32)) s = .next u ∧ t.out = u.out) ∧
    (∀ p : BitVec 64, ∃ t u : State, exec (.encS64 p) s = .next t ∧
      exec (.encU64 ((zigzagFwd (p.signExtend 128)).setWidth 64)) s = .next u ∧ t.out = u.out) ∧
    (∀ p : BitVec 16, ∃ t u r : State, exec (.encU16 p) s = .next t ∧ exec (.encU32 (p.setWidth 32)) s = .next u ∧
      exec (.encU64 (p.setWidth 64)) s = .next r ∧ t.out = u.out ∧ u.out = r.out) ∧
    (∀ p : BitVec 16, ∃ t u r : State, exec (.encS16 p) s = .next t ∧ exec (.encS32 (p.signExtend 32)) s = .next u ∧
      exec (.encS64 (p.signExtend 64)) s = .next r ∧ t.out = u.out ∧ u.out = r.out) ∧
    (∀ p : BitVec 32, ∃ t u : State, exec (.encU32 p) s = .next t ∧ exec (.encU64 (p.setWidth 64)) s = .next u ∧
      t.out = u.out) ∧
    (∀ p : BitVec 32, ∃ t u : State, exec (.encS32 p) s = .next t ∧ exec (.encS64 (p.signExtend 64)) s = .next u ∧
      t.out = u.out)

/-- R127: an unsigned encode is one byte exactly below 128, a signed one exactly from -64 to 63; the length of a signed encode
does not decrease along the zigzag order. The spec derives this from R83 and R101. -/
def Obligations.OneByteEncodings : Prop :=
  (∀ w : Width, ∀ v : BitVec w.bits,
    ((encodeAcc (v.setWidth 128)).length = 1 ↔ v.toNat < 128) ∧
    ((encodeAcc (zigzagFwd (v.signExtend 128))).length = 1 ↔ -64 ≤ v.toInt ∧ v.toInt ≤ 63) ∧
    (∀ u : BitVec w.bits, (zigzagFwd (v.signExtend 128)).toNat ≤ (zigzagFwd (u.signExtend 128)).toNat →
      (encodeAcc (zigzagFwd (v.signExtend 128))).length ≤ (encodeAcc (zigzagFwd (u.signExtend 128))).length)) ∧
  encodeAcc (zigzagFwd ((100#16).signExtend 128)) = [0xC8#8, 0x01#8]

/-- R148: signed decode is not the inverse zigzag of unsigned decode: they agree whenever `z < 2^w`, and `[80 80 04]` is a
window on which they differ at 16 bits. The spec derives this from R140 and R105. -/
def Obligations.SignedDecodeUsesWholeAccumulator : Prop :=
  (∀ (w : Width) (z : Acc), z.toNat < 2 ^ w.bits →
    (zigzagInv z).setWidth w.bits = (zigzagInv ((z.setWidth w.bits).setWidth 128)).setWidth w.bits) ∧
  (∀ s : State, s.phase = .idle → ∃ t u : State,
    exec (.decU16 [0x80#8, 0x80#8, 0x04#8]) s = .next t ∧ t.out = s.out ++ [.respond (.v16 0x0000#16)] ∧
    exec (.decS16 [0x80#8, 0x80#8, 0x04#8]) s = .next u ∧ u.out = s.out ++ [.respond (.v16 0x8000#16)])

/-- R149: no response depends on the accumulator's width, for any width of at least 65 bits. The spec derives this from R86,
R105 and R141. -/
def Obligations.AccumulatorWidthUnobservable : Prop :=
  ∀ A, 65 ≤ A →
    (∀ (op : Sel) (w : List Byte), decodeResult op (decodeAcc A w).1 = decodeResult op (decodeAcc 128 w).1) ∧
    (∀ (n : Nat) (v : BitVec n), n ≤ 64 →
      encodeAcc (v.setWidth A) = encodeAcc (v.setWidth 128) ∧
      encodeAcc (zigzagFwd (v.signExtend A)) = encodeAcc (zigzagFwd (v.signExtend 128)))

/-- R150: decode after encode, of the same width and signedness and with anything after the encoding, returns the operand. The
spec derives this from R87, R90 and R106. -/
def Obligations.OperationRoundTrip : Prop :=
  ∀ (s : State) (tail : List Byte), s.phase = .idle →
    (∀ p : BitVec 16, ∃ (t u : State) (bs : List Byte), exec (.encU16 p) s = .next t ∧
      responses (t.out.drop s.out.length) = [.bytesOut bs] ∧
      exec (.decU16 (bs ++ tail)) t = .next u ∧ u.out = t.out ++ [.respond (.v16 p)]) ∧
    (∀ p : BitVec 16, ∃ (t u : State) (bs : List Byte), exec (.encS16 p) s = .next t ∧
      responses (t.out.drop s.out.length) = [.bytesOut bs] ∧
      exec (.decS16 (bs ++ tail)) t = .next u ∧ u.out = t.out ++ [.respond (.v16 p)]) ∧
    (∀ p : BitVec 32, ∃ (t u : State) (bs : List Byte), exec (.encU32 p) s = .next t ∧
      responses (t.out.drop s.out.length) = [.bytesOut bs] ∧
      exec (.decU32 (bs ++ tail)) t = .next u ∧ u.out = t.out ++ [.respond (.v32 p)]) ∧
    (∀ p : BitVec 32, ∃ (t u : State) (bs : List Byte), exec (.encS32 p) s = .next t ∧
      responses (t.out.drop s.out.length) = [.bytesOut bs] ∧
      exec (.decS32 (bs ++ tail)) t = .next u ∧ u.out = t.out ++ [.respond (.v32 p)]) ∧
    (∀ p : BitVec 64, ∃ (t u : State) (bs : List Byte), exec (.encU64 p) s = .next t ∧
      responses (t.out.drop s.out.length) = [.bytesOut bs] ∧
      exec (.decU64 (bs ++ tail)) t = .next u ∧ u.out = t.out ++ [.respond (.v64 p)]) ∧
    (∀ p : BitVec 64, ∃ (t u : State) (bs : List Byte), exec (.encS64 p) s = .next t ∧
      responses (t.out.drop s.out.length) = [.bytesOut bs] ∧
      exec (.decS64 (bs ++ tail)) t = .next u ∧ u.out = t.out ++ [.respond (.v64 p)])

/-- R151: which input bits reach a result: the low `w` bits of the accumulator, and bit `w` too for a signed operation; after
3, 5 or 10 continuation bytes nothing more of the window changes a 16-, 32- or 64-bit result. The spec derives this from R85,
R105 and R141. -/
def Obligations.ResultBits : Prop :=
  ∀ (op : Sel) (w : Width), selWidth op = some w →
    (∀ z z' : Acc, op.getLsbD 0 = false → z.setWidth w.bits = z'.setWidth w.bits →
      decodeResult op z = decodeResult op z') ∧
    (∀ z z' : Acc, z.setWidth (w.bits + 1) = z'.setWidth (w.bits + 1) → decodeResult op z = decodeResult op z') ∧
    (∀ front rest : List Byte, (∀ b ∈ front, b.getLsbD 7 = true) → w.bits < 7 * front.length →
      decodeResult op (decodeAcc 128 (front ++ rest)).1 = decodeResult op (decodeAcc 128 front).1)

/-! ### The request notation -/

/-- R71: an assembler refuses an immediate outside its domain and a byte literal above 0xFF, and assembles every other one to
the request whose operand is that integer or those bytes. -/
def Obligations.AssemblerRanges : Prop :=
  (∀ (g : Sign) (w : Width) (x : Int),
    (inDomain g w x = false → assembleEncode ⟨.encode, w, g⟩ x = .error .immediateRange) ∧
    (inDomain g w x = true → ∃ (r : Request) (z : Acc), assembleEncode ⟨.encode, w, g⟩ x = .ok r ∧
      decodeSelector r.op = some ⟨.encode, w, g⟩ ∧ operandRem ⟨.encode, w, g⟩ r.operand = some z ∧
      (z.toNat : Int) = match g with
        | .unsigned => x
        | .signed => if 0 ≤ x then 2 * x else -2 * x - 1)) ∧
  (∀ (g : Sign) (w : Width) (bs : List Nat),
    ((∃ n ∈ bs, 0xFF < n) → assembleDecode ⟨.decode, w, g⟩ bs = .error .byteRange) ∧
    ((∀ n ∈ bs, n ≤ 0xFF) → ∃ ws : List Byte, ws.map BitVec.toNat = bs ∧
      assembleDecode ⟨.decode, w, g⟩ bs = .ok ⟨.transaction, encodeSelector ⟨.decode, w, g⟩, .window ws⟩))
end

