-- ==== Sys2Proof/Laws/Codec.lean ====
section
/-! SUPPORT. The codec: one equation per case of `EncodeAcc`, the arithmetic of one accumulation, and what the decode loop does
byte by byte. -/

namespace Sys2Proof.Machine

/-! ### The bits of a byte -/

theorem payload_toNat (b : Byte) : (payload b).toNat = b.toNat % 128 := by
  simp [payload, BitVec.extractLsb'_toNat]

theorem payload_eq_setWidth (b : Byte) : payload b = b.setWidth 7 := by
  apply BitVec.eq_of_toNat_eq
  simp [payload_toNat]

theorem continues_iff (b : Byte) : continues b = true ↔ 128 ≤ b.toNat := by
  revert b; decide

theorem continuationByte_toNat {A : Nat} (x : BitVec A) : (continuationByte x).toNat = 128 + x.toNat % 128 := by
  have h : ∀ p : BitVec 7, (p.setWidth 8 ||| 0x80#8).toNat = 128 + p.toNat := by decide
  rw [continuationByte, h]
  simp [BitVec.extractLsb'_toNat]

theorem continues_continuationByte {A : Nat} (x : BitVec A) : continues (continuationByte x) = true := by
  rw [continues_iff, continuationByte_toNat]; omega

theorem payload_continuationByte {A : Nat} (x : BitVec A) : (payload (continuationByte x)).toNat = x.toNat % 128 := by
  rw [payload_toNat, continuationByte_toNat]; omega

theorem finalByte_toNat {A : Nat} {x : BitVec A} (h : x.toNat ≤ 127) : (finalByte x).toNat = x.toNat := by
  simp only [finalByte, BitVec.toNat_setWidth]
  omega

theorem continues_finalByte {A : Nat} {x : BitVec A} (h : x.toNat ≤ 127) : continues (finalByte x) = false := by
  rw [Bool.eq_false_iff, ne_eq, continues_iff, finalByte_toNat h]; omega

theorem payload_finalByte {A : Nat} {x : BitVec A} (h : x.toNat ≤ 127) : (payload (finalByte x)).toNat = x.toNat := by
  rw [payload_toNat, finalByte_toNat h]; omega

/-! ### `EncodeAcc`, case by case -/

theorem shift7_toNat {A : Nat} (x : BitVec A) : (x >>> 7).toNat = x.toNat / 128 := by
  simp [BitVec.toNat_ushiftRight, Nat.shiftRight_eq_div_pow]

/-- Enough fuel is enough. -/
theorem encodeLoop_fuel {A : Nat} : ∀ (n m : Nat) (x : BitVec A), x.toNat < 128 ^ (n + 1) → x.toNat < 128 ^ (m + 1) →
    encodeLoop n x = encodeLoop m x
  | 0, 0, _, _, _ => rfl
  | 0, m + 1, x, hn, _ => by
    have : ¬ 127 < x.toNat := by simp at hn; omega
    simp [encodeLoop, this]
  | n + 1, 0, x, _, hm => by
    have : ¬ 127 < x.toNat := by simp at hm; omega
    simp [encodeLoop, this]
  | n + 1, m + 1, x, hn, hm => by
    have hs : (x >>> 7).toNat < 128 ^ (n + 1) ∧ (x >>> 7).toNat < 128 ^ (m + 1) := by
      rw [shift7_toNat, Nat.div_lt_iff_lt_mul (by omega), Nat.div_lt_iff_lt_mul (by omega), ← Nat.pow_succ, ← Nat.pow_succ]
      exact ⟨hn, hm⟩
    simp [encodeLoop, encodeLoop_fuel n m (x >>> 7) hs.1 hs.2]

/-- The fuel of `EncodeAcc` is enough for every value. -/
theorem encodeFuel_enough {A : Nat} (x : BitVec A) : x.toNat < 128 ^ (encodeFuel A + 1) := by
  have h2 : (128 : Nat) = 2 ^ 7 := by decide
  rw [h2, ← Nat.pow_mul]
  exact lt_of_lt_of_le x.isLt (Nat.pow_le_pow_right (by omega) (by simp only [encodeFuel]; omega))

theorem encodeAcc_of_le {A : Nat} {x : BitVec A} (h : x.toNat ≤ 127) : encodeAcc x = [finalByte x] := by
  have : ¬ 127 < x.toNat := by omega
  simp only [encodeAcc]
  cases encodeFuel A <;> simp [encodeLoop, this]

theorem encodeAcc_of_gt {A : Nat} {x : BitVec A} (h : 127 < x.toNat) :
    encodeAcc x = continuationByte x :: encodeAcc (x >>> 7) := by
  have hf : encodeLoop (encodeFuel A) x = encodeLoop (encodeFuel A + 1) x :=
    encodeLoop_fuel _ _ _ (encodeFuel_enough x)
      (lt_of_lt_of_le (encodeFuel_enough x) (Nat.pow_le_pow_right (by omega) (by omega)))
  rw [encodeAcc, hf, encodeLoop, if_pos h]
  rfl

/-- Induction along the loop of `EncodeAcc`. -/
theorem encode_induction {A : Nat} {P : BitVec A → Prop} (last : ∀ x : BitVec A, x.toNat ≤ 127 → P x)
    (more : ∀ x : BitVec A, 127 < x.toNat → P (x >>> 7) → P x) (x : BitVec A) : P x := by
  suffices hall : ∀ n, ∀ x : BitVec A, x.toNat ≤ n → P x from hall x.toNat x (le_refl _)
  intro n
  induction n with
  | zero => intro x hx; exact last x (by omega)
  | succ n ih =>
    intro x hx
    by_cases h : 127 < x.toNat
    · exact more x h (ih _ (by rw [shift7_toNat]; omega))
    · exact last x (by omega)

/-- An encoding depends on the value alone, not on the accumulator that holds it. -/
theorem encodeAcc_congr {A B : Nat} (x : BitVec A) : ∀ y : BitVec B, x.toNat = y.toNat → encodeAcc x = encodeAcc y := by
  induction x using encode_induction with
  | last x h =>
    intro y hy
    rw [encodeAcc_of_le h, encodeAcc_of_le (by omega)]
    congr 1
    apply BitVec.eq_of_toNat_eq
    rw [finalByte_toNat h, finalByte_toNat (by omega), hy]
  | more x h ih =>
    intro y hy
    rw [encodeAcc_of_gt h, encodeAcc_of_gt (by omega : 127 < y.toNat),
      ih (y >>> 7) (by rw [shift7_toNat, shift7_toNat, hy])]
    congr 1
    apply BitVec.eq_of_toNat_eq
    rw [continuationByte_toNat, continuationByte_toNat, hy]

theorem encodeAcc_ne_nil {A : Nat} (x : BitVec A) : encodeAcc x ≠ [] := by
  by_cases h : 127 < x.toNat
  · simp [encodeAcc_of_gt h]
  · simp [encodeAcc_of_le (by omega : x.toNat ≤ 127)]

theorem encodeAcc_length_pos {A : Nat} (x : BitVec A) : 0 < (encodeAcc x).length :=
  List.length_pos_iff.mpr (encodeAcc_ne_nil x)

/-- How long an encoding is. -/
theorem encodeAcc_length_le_iff {A : Nat} (x : BitVec A) : ∀ n, 1 ≤ n → ((encodeAcc x).length ≤ n ↔ x.toNat < 128 ^ n) := by
  induction x using encode_induction with
  | last x h =>
    intro n hn
    have : 128 ^ 1 ≤ 128 ^ n := Nat.pow_le_pow_right (by omega) hn
    simp [encodeAcc_of_le h]; omega
  | more x h ih =>
    intro n hn
    rw [encodeAcc_of_gt h, List.length_cons]
    obtain ⟨m, rfl⟩ : ∃ m, n = m + 1 := ⟨n - 1, by omega⟩
    cases m with
    | zero =>
      have := encodeAcc_length_pos (x >>> 7)
      rw [Nat.zero_add, Nat.pow_one]
      omega
    | succ m =>
      rw [Nat.succ_le_succ_iff, ih (m + 1) (by omega), shift7_toNat, Nat.div_lt_iff_lt_mul (by omega), ← Nat.pow_succ]

/-- What the encoder leaves in `REM`. -/
theorem encodeRest_eq {A : Nat} : ∀ (n : Nat) (x : BitVec A), x.toNat < 128 ^ (n + 1) →
    encodeRest n x = x >>> (7 * ((encodeAcc x).length - 1))
  | 0, x, h => by
    have : x.toNat ≤ 127 := by simp at h; omega
    simp [encodeRest, encodeAcc_of_le this]
  | n + 1, x, h => by
    by_cases hx : 127 < x.toNat
    · have hs : (x >>> 7).toNat < 128 ^ (n + 1) := by
        rw [shift7_toNat, Nat.div_lt_iff_lt_mul (by omega), ← Nat.pow_succ]; exact h
      have hp := encodeAcc_length_pos (x >>> 7)
      have he : 7 * ((encodeAcc x).length - 1) = 7 + 7 * ((encodeAcc (x >>> 7)).length - 1) := by
        rw [encodeAcc_of_gt hx, List.length_cons]; omega
      rw [encodeRest, if_pos hx, encodeRest_eq n _ hs, he, BitVec.shiftRight_add]
    · have hx' : x.toNat ≤ 127 := by omega
      simp [encodeRest, hx, encodeAcc_of_le hx']

/-! ### The emissions of an encoding -/

theorem emissions_cons {bs : List Byte} (b : Byte) (h : bs ≠ []) : emissions (b :: bs) = .emit b false :: emissions bs := by
  cases bs with
  | nil => exact absurd rfl h
  | cons c cs => rfl

theorem emissions_length : ∀ bs : List Byte, (emissions bs).length = bs.length
  | [] => rfl
  | [_] => rfl
  | b :: c :: bs => by simp [emissions, emissions_length (c :: bs)]

/-- Every end marker of an encoding repeats the continuation bit. -/
theorem emissions_marker {A : Nat} (x : BitVec A) :
    ∀ b last, Output.emit b last ∈ emissions (encodeAcc x) → last = !continues b := by
  induction x using encode_induction with
  | last x h =>
    intro b last hm
    simp only [encodeAcc_of_le h, emissions, List.mem_singleton, Output.emit.injEq] at hm
    obtain ⟨rfl, rfl⟩ := hm
    simp [continues_finalByte h]
  | more x h ih =>
    intro b last hm
    rw [encodeAcc_of_gt h, emissions_cons _ (encodeAcc_ne_nil _)] at hm
    rcases List.mem_cons.mp hm with hm | hm
    · simp only [Output.emit.injEq] at hm
      obtain ⟨rfl, rfl⟩ := hm
      simp [continues_continuationByte]
    · exact ih b last hm

/-- The emissions of a non-empty sequence are one whole response. -/
theorem collect_emissions (pend : List Byte) : ∀ bs : List Byte, bs ≠ [] → ∀ o,
    collect pend (emissions bs ++ o) = .bytesOut (pend ++ bs) :: collect [] o
  | [], h, _ => absurd rfl h
  | [b], _, o => by simp [emissions, collect]
  | b :: c :: bs, _, o => by
    have := collect_emissions (pend ++ [b]) (c :: bs) (by simp) o
    simp [emissions, collect, this]

/-! ### Accumulation and the decode loop -/

/-- One accumulation onto a value that holds only bits below `7 * i`. -/
theorem accumulate_toNat {A : Nat} (acc : BitVec A) (i : Nat) (b : Byte) (h : acc.toNat < 2 ^ (7 * i)) :
    (accumulate acc i b).toNat = (acc.toNat + (payload b).toNat * 2 ^ (7 * i)) % 2 ^ A := by
  have hs : ((payload b).setWidth A <<< (7 * i)).toNat = (payload b).toNat * 2 ^ (7 * i) % 2 ^ A := by
    simp [BitVec.toNat_shiftLeft, BitVec.toNat_setWidth, Nat.shiftLeft_eq, Nat.mod_mul_mod]
  have ha : acc.toNat = acc.toNat % 2 ^ A := (Nat.mod_eq_of_lt acc.isLt).symm
  rw [accumulate, BitVec.toNat_or, hs]
  conv_lhs => rw [ha]
  rw [← Nat.or_mod_two_pow, Nat.or_comm, Nat.mul_comm, ← Nat.two_pow_add_eq_or_of_lt h, Nat.add_comm]

theorem accumulate_lt {A : Nat} (acc : BitVec A) (i : Nat) (b : Byte) (h : acc.toNat < 2 ^ (7 * i)) :
    (accumulate acc i b).toNat < 2 ^ (7 * (i + 1)) := by
  rw [accumulate_toNat acc i b h]
  refine lt_of_le_of_lt (Nat.mod_le _ _) ?_
  have hp : (payload b).toNat < 2 ^ 7 := (payload b).isLt
  have : (payload b).toNat * 2 ^ (7 * i) ≤ (2 ^ 7 - 1) * 2 ^ (7 * i) := Nat.mul_le_mul_right _ (by omega)
  have h1 : 2 ^ (7 * (i + 1)) = (2 ^ 7 - 1) * 2 ^ (7 * i) + 2 ^ (7 * i) := by
    rw [Nat.mul_succ, Nat.pow_add]; ring
  omega

/-- An accumulation at index `i` leaves every bit below `7 * i`. -/
theorem accumulate_low {A : Nat} (acc : BitVec A) (i : Nat) (b : Byte) (n : Nat) (h : n ≤ 7 * i) :
    (accumulate acc i b).setWidth n = acc.setWidth n := by
  ext k hk
  simp only [accumulate, BitVec.getElem_setWidth, BitVec.getLsbD_or, BitVec.getLsbD_shiftLeft]
  simp [show k < 7 * i by omega]

theorem decodeLoop_continue {A : Nat} {b : Byte} (h : continues b = true) (s : List Byte) (acc : BitVec A) (i : Nat) :
    decodeLoop (b :: s) acc i = decodeLoop s (accumulate acc i b) (i + 1) := by
  simp [decodeLoop, h]

theorem decodeLoop_stop {A : Nat} {b : Byte} (h : continues b = false) (s : List Byte) (acc : BitVec A) (i : Nat) :
    decodeLoop (b :: s) acc i = (accumulate acc i b, i + 1) := by
  simp [decodeLoop, h]

/-- A run of continuation bytes is consumed before what follows it. -/
theorem decodeLoop_append {A : Nat} : ∀ (front : List Byte), (∀ b ∈ front, continues b = true) →
    ∀ (s : List Byte) (acc : BitVec A) (i : Nat),
      decodeLoop (front ++ s) acc i = decodeLoop s (decodeLoop front acc i).1 (i + front.length)
  | [], _, _, _, _ => rfl
  | b :: front, h, s, acc, i => by
    have hb := h b (by simp)
    rw [List.cons_append, decodeLoop_continue hb, decodeLoop_continue hb,
      decodeLoop_append front (fun c hc => h c (by simp [hc])), List.length_cons]
    congr 1
    omega

/-- How many bytes the loop consumes does not depend on the value. -/
theorem decodeLoop_count {A : Nat} : ∀ (s : List Byte) (acc : BitVec A) (i : Nat),
    (decodeLoop s acc i).2 = i + (varintLength s).getD s.length
  | [], _, _ => rfl
  | b :: s, acc, i => by
    cases hb : continues b with
    | true =>
      rw [decodeLoop_continue hb, decodeLoop_count s, varintLength, if_pos hb, List.length_cons]
      cases varintLength s <;> simp <;> omega
    | false => simp [decodeLoop_stop hb, varintLength, hb]

/-- The value the loop gives: the payloads of the consumed bytes as base-128 digits, above what was there. -/
theorem decodeLoop_value {A : Nat} : ∀ (s : List Byte) (acc : BitVec A) (i : Nat), acc.toNat < 2 ^ (7 * i) →
    (decodeLoop s acc i).1.toNat =
      (acc.toNat + 2 ^ (7 * i) *
        Nat.ofDigits 128 ((s.take ((varintLength s).getD s.length)).map fun b => (payload b).toNat)) % 2 ^ A
  | [], acc, i, _ => by simp [decodeLoop, varintLength, Nat.mod_eq_of_lt acc.isLt]
  | b :: s, acc, i, h => by
    have e : 2 ^ (7 * (i + 1)) = 2 ^ (7 * i) * 128 := by rw [Nat.mul_succ, Nat.pow_add]
    cases hb : continues b with
    | true =>
      have ht : (b :: s).take ((varintLength (b :: s)).getD (b :: s).length) =
          b :: s.take ((varintLength s).getD s.length) := by
        rw [varintLength, if_pos hb]
        cases varintLength s <;> simp
      rw [decodeLoop_continue hb, decodeLoop_value s _ _ (accumulate_lt acc i b h), accumulate_toNat acc i b h, ht, e,
        List.map_cons, Nat.ofDigits_cons, Nat.mod_add_mod]
      congr 1
      ring
    | false =>
      rw [decodeLoop_stop hb, accumulate_toNat acc i b h, varintLength]
      simp [hb, Nat.ofDigits_cons, Nat.mul_comm]

end Sys2Proof.Machine
end

