-- ==== Sys2Proof/Laws/Decode.lean ====
section
/-! SUPPORT. The selector decoder and encoder, and decoding a request. -/

namespace Sys2Proof

theorem decodeSelector_encodeSelector (o : Operation) : decodeSelector (encodeSelector o) = some o := by
  obtain ⟨d, w, g⟩ := o
  cases d <;> cases w <;> cases g <;> decide

theorem selDir_encodeSelector (o : Operation) : selDir (encodeSelector o) = o.dir := by
  obtain ⟨d, w, g⟩ := o
  cases d <;> cases w <;> cases g <;> decide

theorem selWidth_encodeSelector (o : Operation) : selWidth (encodeSelector o) = some o.width := by
  obtain ⟨d, w, g⟩ := o
  cases d <;> cases w <;> cases g <;> decide

theorem selSign_encodeSelector (o : Operation) : selSign (encodeSelector o) = o.sign := by
  obtain ⟨d, w, g⟩ := o
  cases d <;> cases w <;> cases g <;> decide

/-- A selector that decodes is the code of what it decodes to. -/
theorem encodeSelector_of_decode {op : Sel} {o : Operation} (h : decodeSelector op = some o) : encodeSelector o = op := by
  have hall : ∀ op : Sel,
      (decodeSelector op).map encodeSelector = none ∨ (decodeSelector op).map encodeSelector = some op := by decide
  rcases hall op with h' | h' <;> simp [h] at h'
  exact h'

theorem decodeSelector_selector (i : Instr) : decodeSelector i.selector = some i.operation :=
  decodeSelector_encodeSelector _

theorem decodeSelector_none_iff : ∀ op : Sel, decodeSelector op = none ↔ op.extractLsb' 1 2 = 0b11#2 := by decide

theorem decodeSelector_dir {op : Sel} {o : Operation} (h : decodeSelector op = some o) :
    o.dir = .decode ↔ op.getLsbD 3 = true := by
  simp only [decodeSelector, Option.map_eq_some_iff] at h
  obtain ⟨w, -, rfl⟩ := h
  simp only [selDir]
  split <;> simp_all

theorem selWidth_isSome : ∀ op : Sel, op.extractLsb' 1 2 ≠ 0b11#2 → (selWidth op).isSome = true := by decide

/-- Decoding a request whose selector is admitted and whose operand fits. -/
theorem decodeRequest_ok {op : Sel} {x : Operand} {o : Operation} {i : Instr} (ho : decodeSelector op = some o)
    (hi : attachOperand o x = some i) : decodeRequest op x = .ok i := by
  simp only [decodeRequest, ho, hi]

theorem attachOperand_operand (i : Instr) : attachOperand i.operation i.operand = some i := by
  cases i <;> rfl

/-- The request that asks for an operation is well formed. -/
theorem wellFormed_encode (i : Instr) : (encode i).wellFormed = true := by
  cases i <;>
    simp [Request.wellFormed, selectorAdmitted, operandFits, encode, Instr.selector, encodeSelector, Instr.operation,
      dirCode, widthCode, signCode, Instr.operand]

end Sys2Proof
end

