-- ==== Sys2Proof/Laws/State.lean ====
section
/-! SUPPORT. One lemma per field per update of the state: what each named operation writes and what it leaves. -/

namespace Sys2Proof.Machine

/-! ### `emit` -/

@[simp] theorem emit_phase (b : Byte) (last : Bool) (s : State) : (emit b last s).phase = s.phase := rfl
@[simp] theorem emit_op (b : Byte) (last : Bool) (s : State) : (emit b last s).op = s.op := rfl
@[simp] theorem emit_rem (b : Byte) (last : Bool) (s : State) : (emit b last s).rem = s.rem := rfl
@[simp] theorem emit_acc (b : Byte) (last : Bool) (s : State) : (emit b last s).acc = s.acc := rfl
@[simp] theorem emit_idx (b : Byte) (last : Bool) (s : State) : (emit b last s).idx = s.idx := rfl
@[simp] theorem emit_dstate (b : Byte) (last : Bool) (s : State) : (emit b last s).dstate = s.dstate := rfl
@[simp] theorem emit_requests (b : Byte) (last : Bool) (s : State) : (emit b last s).requests = s.requests := rfl
@[simp] theorem emit_items (b : Byte) (last : Bool) (s : State) : (emit b last s).items = s.items := rfl
@[simp] theorem emit_resetLine (b : Byte) (last : Bool) (s : State) : (emit b last s).resetLine = s.resetLine := rfl
@[simp] theorem emit_out (b : Byte) (last : Bool) (s : State) : (emit b last s).out = s.out ++ [.emit b last] := rfl
@[simp] theorem emit_refusalMark (b : Byte) (last : Bool) (s : State) : (emit b last s).refusalMark = s.refusalMark := rfl
@[simp] theorem emit_abandoned (b : Byte) (last : Bool) (s : State) : (emit b last s).abandoned = s.abandoned := rfl

/-! ### `respond` -/

@[simp] theorem respond_phase (v : Value) (s : State) : (respond v s).phase = .idle := rfl
@[simp] theorem respond_op (v : Value) (s : State) : (respond v s).op = s.op := rfl
@[simp] theorem respond_rem (v : Value) (s : State) : (respond v s).rem = s.rem := rfl
@[simp] theorem respond_acc (v : Value) (s : State) : (respond v s).acc = s.acc := rfl
@[simp] theorem respond_idx (v : Value) (s : State) : (respond v s).idx = s.idx := rfl
@[simp] theorem respond_dstate (v : Value) (s : State) : (respond v s).dstate = s.dstate := rfl
@[simp] theorem respond_requests (v : Value) (s : State) : (respond v s).requests = s.requests := rfl
@[simp] theorem respond_items (v : Value) (s : State) : (respond v s).items = s.items := rfl
@[simp] theorem respond_resetLine (v : Value) (s : State) : (respond v s).resetLine = s.resetLine := rfl
@[simp] theorem respond_out (v : Value) (s : State) : (respond v s).out = s.out ++ [.respond v] := rfl
@[simp] theorem respond_refusalMark (v : Value) (s : State) : (respond v s).refusalMark = s.refusalMark := rfl
@[simp] theorem respond_abandoned (v : Value) (s : State) : (respond v s).abandoned = s.abandoned := rfl

/-! ### `acceptEncode` -/

@[simp] theorem acceptEncode_phase (op : Sel) (x : Acc) (s : State) : (acceptEncode op x s).phase = .enc := rfl
@[simp] theorem acceptEncode_op (op : Sel) (x : Acc) (s : State) : (acceptEncode op x s).op = op := rfl
@[simp] theorem acceptEncode_rem (op : Sel) (x : Acc) (s : State) : (acceptEncode op x s).rem = x := rfl
@[simp] theorem acceptEncode_acc (op : Sel) (x : Acc) (s : State) : (acceptEncode op x s).acc = s.acc := rfl
@[simp] theorem acceptEncode_idx (op : Sel) (x : Acc) (s : State) : (acceptEncode op x s).idx = s.idx := rfl
@[simp] theorem acceptEncode_dstate (op : Sel) (x : Acc) (s : State) : (acceptEncode op x s).dstate = s.dstate := rfl
@[simp] theorem acceptEncode_requests (op : Sel) (x : Acc) (s : State) : (acceptEncode op x s).requests = s.requests := rfl
@[simp] theorem acceptEncode_items (op : Sel) (x : Acc) (s : State) : (acceptEncode op x s).items = s.items := rfl
@[simp] theorem acceptEncode_resetLine (op : Sel) (x : Acc) (s : State) : (acceptEncode op x s).resetLine = s.resetLine := rfl
@[simp] theorem acceptEncode_out (op : Sel) (x : Acc) (s : State) : (acceptEncode op x s).out = s.out := rfl
@[simp] theorem acceptEncode_refusalMark (op : Sel) (x : Acc) (s : State) : (acceptEncode op x s).refusalMark = s.refusalMark := rfl
@[simp] theorem acceptEncode_abandoned (op : Sel) (x : Acc) (s : State) : (acceptEncode op x s).abandoned = s.abandoned := rfl

/-! ### `acceptDecode` -/

@[simp] theorem acceptDecode_phase (op : Sel) (s : State) : (acceptDecode op s).phase = .dec := rfl
@[simp] theorem acceptDecode_op (op : Sel) (s : State) : (acceptDecode op s).op = op := rfl
@[simp] theorem acceptDecode_rem (op : Sel) (s : State) : (acceptDecode op s).rem = s.rem := rfl
@[simp] theorem acceptDecode_acc (op : Sel) (s : State) : (acceptDecode op s).acc = 0 := rfl
@[simp] theorem acceptDecode_idx (op : Sel) (s : State) : (acceptDecode op s).idx = 0 := rfl
@[simp] theorem acceptDecode_dstate (op : Sel) (s : State) : (acceptDecode op s).dstate = .reading := rfl
@[simp] theorem acceptDecode_requests (op : Sel) (s : State) : (acceptDecode op s).requests = s.requests := rfl
@[simp] theorem acceptDecode_items (op : Sel) (s : State) : (acceptDecode op s).items = s.items := rfl
@[simp] theorem acceptDecode_resetLine (op : Sel) (s : State) : (acceptDecode op s).resetLine = s.resetLine := rfl
@[simp] theorem acceptDecode_out (op : Sel) (s : State) : (acceptDecode op s).out = s.out := rfl
@[simp] theorem acceptDecode_refusalMark (op : Sel) (s : State) : (acceptDecode op s).refusalMark = s.refusalMark := rfl
@[simp] theorem acceptDecode_abandoned (op : Sel) (s : State) : (acceptDecode op s).abandoned = s.abandoned := rfl

/-! ### `hold` -/

@[simp] theorem hold_phase (r : Request) (s : State) : (hold r s).phase = s.phase := rfl
@[simp] theorem hold_op (r : Request) (s : State) : (hold r s).op = s.op := rfl
@[simp] theorem hold_rem (r : Request) (s : State) : (hold r s).rem = s.rem := rfl
@[simp] theorem hold_acc (r : Request) (s : State) : (hold r s).acc = s.acc := rfl
@[simp] theorem hold_idx (r : Request) (s : State) : (hold r s).idx = s.idx := rfl
@[simp] theorem hold_dstate (r : Request) (s : State) : (hold r s).dstate = s.dstate := rfl
@[simp] theorem hold_requests (r : Request) (s : State) : (hold r s).requests = r :: s.requests := rfl
@[simp] theorem hold_items (r : Request) (s : State) : (hold r s).items = s.items := rfl
@[simp] theorem hold_resetLine (r : Request) (s : State) : (hold r s).resetLine = s.resetLine := rfl
@[simp] theorem hold_out (r : Request) (s : State) : (hold r s).out = s.out := rfl
@[simp] theorem hold_refusalMark (r : Request) (s : State) : (hold r s).refusalMark = s.refusalMark := rfl
@[simp] theorem hold_abandoned (r : Request) (s : State) : (hold r s).abandoned = s.abandoned := rfl

/-! ### `runEncode` -/

@[simp] theorem runEncode_phase (op : Sel) (x : Acc) (s : State) : (runEncode op x s).phase = .idle := rfl
@[simp] theorem runEncode_op (op : Sel) (x : Acc) (s : State) : (runEncode op x s).op = op := rfl
@[simp] theorem runEncode_rem (op : Sel) (x : Acc) (s : State) : (runEncode op x s).rem = encodeRest (encodeFuel Config.accWidth) x := rfl
@[simp] theorem runEncode_acc (op : Sel) (x : Acc) (s : State) : (runEncode op x s).acc = s.acc := rfl
@[simp] theorem runEncode_idx (op : Sel) (x : Acc) (s : State) : (runEncode op x s).idx = s.idx := rfl
@[simp] theorem runEncode_dstate (op : Sel) (x : Acc) (s : State) : (runEncode op x s).dstate = s.dstate := rfl
@[simp] theorem runEncode_requests (op : Sel) (x : Acc) (s : State) : (runEncode op x s).requests = s.requests := rfl
@[simp] theorem runEncode_items (op : Sel) (x : Acc) (s : State) : (runEncode op x s).items = s.items := rfl
@[simp] theorem runEncode_resetLine (op : Sel) (x : Acc) (s : State) : (runEncode op x s).resetLine = s.resetLine := rfl
@[simp] theorem runEncode_out (op : Sel) (x : Acc) (s : State) : (runEncode op x s).out = s.out ++ emissions (encodeAcc x) := rfl
@[simp] theorem runEncode_refusalMark (op : Sel) (x : Acc) (s : State) : (runEncode op x s).refusalMark = s.refusalMark := rfl
@[simp] theorem runEncode_abandoned (op : Sel) (x : Acc) (s : State) : (runEncode op x s).abandoned = s.abandoned := rfl

/-! ### `runDecode` -/

@[simp] theorem runDecode_phase (op : Sel) (w : List Byte) (f : Acc → Value) (s : State) : (runDecode op w f s).phase = .idle := rfl
@[simp] theorem runDecode_op (op : Sel) (w : List Byte) (f : Acc → Value) (s : State) : (runDecode op w f s).op = op := rfl
@[simp] theorem runDecode_rem (op : Sel) (w : List Byte) (f : Acc → Value) (s : State) : (runDecode op w f s).rem = s.rem := rfl
@[simp] theorem runDecode_acc (op : Sel) (w : List Byte) (f : Acc → Value) (s : State) : (runDecode op w f s).acc = (decodeAcc Config.accWidth w).1 := rfl
@[simp] theorem runDecode_idx (op : Sel) (w : List Byte) (f : Acc → Value) (s : State) : (runDecode op w f s).idx = (decodeAcc Config.accWidth w).2 := rfl
@[simp] theorem runDecode_dstate (op : Sel) (w : List Byte) (f : Acc → Value) (s : State) : (runDecode op w f s).dstate = .terminated := rfl
@[simp] theorem runDecode_requests (op : Sel) (w : List Byte) (f : Acc → Value) (s : State) : (runDecode op w f s).requests = s.requests := rfl
@[simp] theorem runDecode_items (op : Sel) (w : List Byte) (f : Acc → Value) (s : State) : (runDecode op w f s).items = s.items := rfl
@[simp] theorem runDecode_resetLine (op : Sel) (w : List Byte) (f : Acc → Value) (s : State) : (runDecode op w f s).resetLine = s.resetLine := rfl
@[simp] theorem runDecode_out (op : Sel) (w : List Byte) (f : Acc → Value) (s : State) : (runDecode op w f s).out = s.out ++ [.respond (f (decodeAcc Config.accWidth w).1)] := rfl
@[simp] theorem runDecode_refusalMark (op : Sel) (w : List Byte) (f : Acc → Value) (s : State) : (runDecode op w f s).refusalMark = s.refusalMark := rfl
@[simp] theorem runDecode_abandoned (op : Sel) (w : List Byte) (f : Acc → Value) (s : State) : (runDecode op w f s).abandoned = s.abandoned := rfl

/-! ### `applyReset` -/

@[simp] theorem applyReset_phase (s : State) : (applyReset s).phase = .idle := rfl
@[simp] theorem applyReset_op (s : State) : (applyReset s).op = 0 := rfl
@[simp] theorem applyReset_rem (s : State) : (applyReset s).rem = 0 := rfl
@[simp] theorem applyReset_acc (s : State) : (applyReset s).acc = 0 := rfl
@[simp] theorem applyReset_idx (s : State) : (applyReset s).idx = 0 := rfl
@[simp] theorem applyReset_dstate (s : State) : (applyReset s).dstate = .reading := rfl
@[simp] theorem applyReset_requests (s : State) : (applyReset s).requests = s.requests := rfl
@[simp] theorem applyReset_items (s : State) : (applyReset s).items = s.items := rfl
@[simp] theorem applyReset_resetLine (s : State) : (applyReset s).resetLine = false := rfl
@[simp] theorem applyReset_out (s : State) : (applyReset s).out = s.out := rfl
@[simp] theorem applyReset_refusalMark (s : State) : (applyReset s).refusalMark = s.refusalMark := rfl
@[simp] theorem applyReset_abandoned (s : State) : (applyReset s).abandoned = (s.abandoned || s.phase != .idle) := rfl

/-! ### `placeRequest` -/

@[simp] theorem placeRequest_phase (r : Request) (s : State) : (placeRequest r s).phase = .idle := rfl
@[simp] theorem placeRequest_op (r : Request) (s : State) : (placeRequest r s).op = s.op := rfl
@[simp] theorem placeRequest_rem (r : Request) (s : State) : (placeRequest r s).rem = s.rem := rfl
@[simp] theorem placeRequest_acc (r : Request) (s : State) : (placeRequest r s).acc = s.acc := rfl
@[simp] theorem placeRequest_idx (r : Request) (s : State) : (placeRequest r s).idx = s.idx := rfl
@[simp] theorem placeRequest_dstate (r : Request) (s : State) : (placeRequest r s).dstate = s.dstate := rfl
@[simp] theorem placeRequest_requests (r : Request) (s : State) : (placeRequest r s).requests = r :: s.requests := rfl
@[simp] theorem placeRequest_items (r : Request) (s : State) : (placeRequest r s).items = s.items := rfl
@[simp] theorem placeRequest_resetLine (r : Request) (s : State) : (placeRequest r s).resetLine = false := rfl
@[simp] theorem placeRequest_out (r : Request) (s : State) : (placeRequest r s).out = s.out := rfl
@[simp] theorem placeRequest_refusalMark (r : Request) (s : State) : (placeRequest r s).refusalMark = s.refusalMark := rfl
@[simp] theorem placeRequest_abandoned (r : Request) (s : State) : (placeRequest r s).abandoned = s.abandoned := rfl

/-! ### `present` -/

@[simp] theorem present_phase (r : Request) (s : State) : (present r s).phase = s.phase := rfl
@[simp] theorem present_op (r : Request) (s : State) : (present r s).op = s.op := rfl
@[simp] theorem present_rem (r : Request) (s : State) : (present r s).rem = s.rem := rfl
@[simp] theorem present_acc (r : Request) (s : State) : (present r s).acc = s.acc := rfl
@[simp] theorem present_idx (r : Request) (s : State) : (present r s).idx = s.idx := rfl
@[simp] theorem present_dstate (r : Request) (s : State) : (present r s).dstate = s.dstate := rfl
@[simp] theorem present_requests (r : Request) (s : State) : (present r s).requests = s.requests ++ [r] := rfl
@[simp] theorem present_items (r : Request) (s : State) : (present r s).items = s.items := rfl
@[simp] theorem present_resetLine (r : Request) (s : State) : (present r s).resetLine = s.resetLine := rfl
@[simp] theorem present_out (r : Request) (s : State) : (present r s).out = s.out := rfl
@[simp] theorem present_refusalMark (r : Request) (s : State) : (present r s).refusalMark = s.refusalMark := rfl
@[simp] theorem present_abandoned (r : Request) (s : State) : (present r s).abandoned = s.abandoned := rfl

/-! ### `offer` -/

@[simp] theorem offer_phase (it : Item) (s : State) : (offer it s).phase = s.phase := rfl
@[simp] theorem offer_op (it : Item) (s : State) : (offer it s).op = s.op := rfl
@[simp] theorem offer_rem (it : Item) (s : State) : (offer it s).rem = s.rem := rfl
@[simp] theorem offer_acc (it : Item) (s : State) : (offer it s).acc = s.acc := rfl
@[simp] theorem offer_idx (it : Item) (s : State) : (offer it s).idx = s.idx := rfl
@[simp] theorem offer_dstate (it : Item) (s : State) : (offer it s).dstate = s.dstate := rfl
@[simp] theorem offer_requests (it : Item) (s : State) : (offer it s).requests = s.requests := rfl
@[simp] theorem offer_items (it : Item) (s : State) : (offer it s).items = s.items ++ [it] := rfl
@[simp] theorem offer_resetLine (it : Item) (s : State) : (offer it s).resetLine = s.resetLine := rfl
@[simp] theorem offer_out (it : Item) (s : State) : (offer it s).out = s.out := rfl
@[simp] theorem offer_refusalMark (it : Item) (s : State) : (offer it s).refusalMark = s.refusalMark := rfl
@[simp] theorem offer_abandoned (it : Item) (s : State) : (offer it s).abandoned = s.abandoned := rfl

/-! ### `withdrawItems` -/

@[simp] theorem withdrawItems_phase (s : State) : (withdrawItems s).phase = s.phase := rfl
@[simp] theorem withdrawItems_op (s : State) : (withdrawItems s).op = s.op := rfl
@[simp] theorem withdrawItems_rem (s : State) : (withdrawItems s).rem = s.rem := rfl
@[simp] theorem withdrawItems_acc (s : State) : (withdrawItems s).acc = s.acc := rfl
@[simp] theorem withdrawItems_idx (s : State) : (withdrawItems s).idx = s.idx := rfl
@[simp] theorem withdrawItems_dstate (s : State) : (withdrawItems s).dstate = s.dstate := rfl
@[simp] theorem withdrawItems_requests (s : State) : (withdrawItems s).requests = s.requests := rfl
@[simp] theorem withdrawItems_items (s : State) : (withdrawItems s).items = [] := rfl
@[simp] theorem withdrawItems_resetLine (s : State) : (withdrawItems s).resetLine = s.resetLine := rfl
@[simp] theorem withdrawItems_out (s : State) : (withdrawItems s).out = s.out := rfl
@[simp] theorem withdrawItems_refusalMark (s : State) : (withdrawItems s).refusalMark = s.refusalMark := rfl
@[simp] theorem withdrawItems_abandoned (s : State) : (withdrawItems s).abandoned = s.abandoned := rfl

/-! ### `assertReset` -/

@[simp] theorem assertReset_phase (s : State) : (assertReset s).phase = s.phase := rfl
@[simp] theorem assertReset_op (s : State) : (assertReset s).op = s.op := rfl
@[simp] theorem assertReset_rem (s : State) : (assertReset s).rem = s.rem := rfl
@[simp] theorem assertReset_acc (s : State) : (assertReset s).acc = s.acc := rfl
@[simp] theorem assertReset_idx (s : State) : (assertReset s).idx = s.idx := rfl
@[simp] theorem assertReset_dstate (s : State) : (assertReset s).dstate = s.dstate := rfl
@[simp] theorem assertReset_requests (s : State) : (assertReset s).requests = s.requests := rfl
@[simp] theorem assertReset_items (s : State) : (assertReset s).items = s.items := rfl
@[simp] theorem assertReset_resetLine (s : State) : (assertReset s).resetLine = true := rfl
@[simp] theorem assertReset_out (s : State) : (assertReset s).out = s.out := rfl
@[simp] theorem assertReset_refusalMark (s : State) : (assertReset s).refusalMark = s.refusalMark := rfl
@[simp] theorem assertReset_abandoned (s : State) : (assertReset s).abandoned = s.abandoned := rfl

/-! ### `afterRefusal` -/

@[simp] theorem afterRefusal_phase (s : State) : (afterRefusal s).phase = s.phase := rfl
@[simp] theorem afterRefusal_op (s : State) : (afterRefusal s).op = s.op := rfl
@[simp] theorem afterRefusal_rem (s : State) : (afterRefusal s).rem = s.rem := rfl
@[simp] theorem afterRefusal_acc (s : State) : (afterRefusal s).acc = s.acc := rfl
@[simp] theorem afterRefusal_idx (s : State) : (afterRefusal s).idx = s.idx := rfl
@[simp] theorem afterRefusal_dstate (s : State) : (afterRefusal s).dstate = s.dstate := rfl
@[simp] theorem afterRefusal_requests (s : State) : (afterRefusal s).requests = s.requests.tail := rfl
@[simp] theorem afterRefusal_items (s : State) : (afterRefusal s).items = s.items := rfl
@[simp] theorem afterRefusal_resetLine (s : State) : (afterRefusal s).resetLine = s.resetLine := rfl
@[simp] theorem afterRefusal_out (s : State) : (afterRefusal s).out = s.out := rfl
@[simp] theorem afterRefusal_refusalMark (s : State) : (afterRefusal s).refusalMark = true := rfl
@[simp] theorem afterRefusal_abandoned (s : State) : (afterRefusal s).abandoned = s.abandoned := rfl

end Sys2Proof.Machine
end

