-- ==== Sys2Proof/Laws/Ops.lean ====
section
/-! SUPPORT. One lemma per shared operation: everything it can answer. -/

namespace Sys2Proof.Machine

/-! ### Register reads -/

theorem readRem_enc {s : State} (h : s.phase = .enc) : readRem s = .ok s.rem := by simp [readRem, h]
theorem readAcc_dec {s : State} (h : s.phase = .dec) : readAcc s = .ok s.acc := by simp [readAcc, h]
theorem readIdx_dec {s : State} (h : s.phase = .dec) : readIdx s = .ok s.idx := by simp [readIdx, h]
theorem readDState_dec {s : State} (h : s.phase = .dec) : readDState s = .ok s.dstate := by simp [readDState, h]
theorem readOp_dec {s : State} (h : s.phase = .dec) : readOp s = .ok s.op := by simp [readOp, h]

/-! ### The shared shape of an operation -/

/-- In `Idle` an operation runs. -/
theorem whenIdle_idle {i : Instr} {s : State} {run : State → State} (h : s.phase = .idle) :
    whenIdle i s run = .next (run s) := by simp [whenIdle, h]

/-- While the block is busy its request is held. -/
theorem whenIdle_busy {i : Instr} {s : State} {run : State → State} (h : s.phase ≠ .idle) :
    whenIdle i s run = .next (hold (encode i) s) := by simp [whenIdle, h]

/-! ### The value a decode answers -/

/-- `DecodeResult` under the selector of an operation. -/
theorem decodeResult_operation {A : Nat} (o : Operation) (z : BitVec A) :
    decodeResult (encodeSelector o) z = some (match o.sign with
      | .unsigned => valueOf o.width z
      | .signed => valueOf o.width (zigzagInv z)) := by
  rw [decodeResult, selWidth_encodeSelector, selSign_encodeSelector]
  cases o.sign <;> rfl

/-- A decode completes under every selector but a reserved one. -/
theorem decodeResult_some {A : Nat} {op : Sel} (h : op.extractLsb' 1 2 ≠ 0b11#2) (z : BitVec A) :
    ∃ v, decodeResult op z = some v := by
  obtain ⟨w, hw⟩ := Option.isSome_iff_exists.mp (selWidth_isSome op h)
  rw [decodeResult, hw]
  exact ⟨_, rfl⟩

/-! ### The dispatch -/

/-- How an operation runs in `Idle`: from the value an encode starts with, or with the window and result of a decode. -/
theorem exec_idle (i : Instr) {s : State} (h : s.phase = .idle) :
    (i.operation.dir = .encode ∧ ∃ x : Acc, operandRem i.operation i.operand = some x ∧
      exec i s = .next (runEncode i.selector x s)) ∨
    (i.operation.dir = .decode ∧ ∃ (w : List Byte) (f : Acc → Value), i.operand = .window w ∧
      (∀ z, decodeResult i.selector z = some (f z)) ∧ exec i s = .next (runDecode i.selector w f s)) := by
  cases i
  case encU16 v => exact .inl ⟨rfl, widenUnsigned Config.accWidth v, rfl, whenIdle_idle h⟩
  case encS16 v => exact .inl ⟨rfl, zigzagFwd (widenSigned Config.accWidth v), rfl, whenIdle_idle h⟩
  case encU32 v => exact .inl ⟨rfl, widenUnsigned Config.accWidth v, rfl, whenIdle_idle h⟩
  case encS32 v => exact .inl ⟨rfl, zigzagFwd (widenSigned Config.accWidth v), rfl, whenIdle_idle h⟩
  case encU64 v => exact .inl ⟨rfl, widenUnsigned Config.accWidth v, rfl, whenIdle_idle h⟩
  case encS64 v => exact .inl ⟨rfl, zigzagFwd (widenSigned Config.accWidth v), rfl, whenIdle_idle h⟩
  case decU16 w =>
    exact .inr ⟨rfl, w, fun z => .v16 (narrow 16 z), rfl, decodeResult_operation _, whenIdle_idle h⟩
  case decS16 w =>
    exact .inr ⟨rfl, w, fun z => .v16 (narrow 16 (zigzagInv z)), rfl, decodeResult_operation _, whenIdle_idle h⟩
  case decU32 w =>
    exact .inr ⟨rfl, w, fun z => .v32 (narrow 32 z), rfl, decodeResult_operation _, whenIdle_idle h⟩
  case decS32 w =>
    exact .inr ⟨rfl, w, fun z => .v32 (narrow 32 (zigzagInv z)), rfl, decodeResult_operation _, whenIdle_idle h⟩
  case decU64 w =>
    exact .inr ⟨rfl, w, fun z => .v64 (narrow 64 z), rfl, decodeResult_operation _, whenIdle_idle h⟩
  case decS64 w =>
    exact .inr ⟨rfl, w, fun z => .v64 (narrow 64 (zigzagInv z)), rfl, decodeResult_operation _, whenIdle_idle h⟩

/-- A busy block holds the request of every operation. -/
theorem exec_busy (i : Instr) {s : State} (h : s.phase ≠ .idle) : exec i s = .next (hold (encode i) s) := by
  cases i <;> exact whenIdle_busy h

/-! ### The streaming steps -/

/-- `EncStep` in phase `Enc`. -/
theorem encStep_enc {s : State} (h : s.phase = .enc) :
    encStep s =
      if 127 < s.rem.toNat then .next { emit (continuationByte s.rem) false s with rem := s.rem >>> 7 }
      else .next { emit (finalByte s.rem) true s with phase := .idle } := by
  simp only [encStep, readRem_enc h]

/-- `Finish` in phase `Dec`. -/
theorem finish_dec {s : State} (h : s.phase = .dec) :
    (∃ v, decodeResult s.op s.acc = some v ∧ finish s = .next (respond v s)) ∨
    (decodeResult s.op s.acc = none ∧ finish s = .fault (.reservedWidthLatched s.op)) := by
  rw [finish, readOp_dec h, readAcc_dec h]
  cases hv : decodeResult s.op s.acc with
  | some v => exact .inl ⟨v, rfl, by simp only [hv]⟩
  | none => exact .inr ⟨rfl, by simp only [hv]⟩

/-- A step of a decode in progress, written out. -/
theorem decPhase_eq {s : State} (hp : s.phase = .dec) :
    decPhase s = match s.dstate with
      | .terminated => .fault .decodeEnded
      | .reading =>
        match s.items with
        | [] => .next s
        | .inByte b :: rest =>
          if continues b then .next { s with items := rest, acc := accumulate s.acc s.idx b, idx := s.idx + 1 }
          else
            match decodeResult s.op (accumulate s.acc s.idx b) with
            | some v => .next (respond v { s with
                items := rest, acc := accumulate s.acc s.idx b, idx := s.idx + 1, dstate := .terminated })
            | none => .fault (.reservedWidthLatched s.op)
        | .inEow :: rest =>
          match decodeResult s.op s.acc with
          | some v => .next (respond v { s with items := rest, dstate := .terminated })
          | none => .fault (.reservedWidthLatched s.op) := by
  unfold decPhase
  rw [readDState_dec hp]
  cases hd : s.dstate with
  | terminated => rfl
  | reading =>
    cases hi : s.items with
    | nil => rfl
    | cons it rest =>
      cases it with
      | inByte b =>
        simp only [decStep]
        rw [readAcc_dec (by exact hp), readIdx_dec (by exact hp)]
        cases hc : continues b with
        | true => simp [← hd]
        | false =>
          rcases finish_dec (s := { s with
            items := rest, acc := accumulate s.acc s.idx b, idx := s.idx + 1, dstate := .terminated }) hp
            with ⟨v, hv, hf⟩ | ⟨hv, hf⟩ <;>
          · simp only [Bool.false_eq_true, if_false]
            simp_all
      | inEow =>
        simp only [decStep]
        rcases finish_dec (s := { s with items := rest, dstate := .terminated }) hp with ⟨v, hv, hf⟩ | ⟨hv, hf⟩ <;>
          simp_all

/-- What a step of a decode in progress can answer. -/
theorem decPhase_next {s t : State} (hp : s.phase = .dec) (h : decPhase s = .next t) :
    s.dstate = .reading ∧
    ((s.items = [] ∧ t = s) ∨
     (∃ b rest, s.items = .inByte b :: rest ∧ continues b = true ∧
       t = { s with items := rest, acc := accumulate s.acc s.idx b, idx := s.idx + 1 }) ∨
     (∃ b rest v, s.items = .inByte b :: rest ∧ continues b = false ∧
       decodeResult s.op (accumulate s.acc s.idx b) = some v ∧
       t = respond v { s with
         items := rest, acc := accumulate s.acc s.idx b, idx := s.idx + 1, dstate := .terminated }) ∨
     (∃ rest v, s.items = .inEow :: rest ∧ decodeResult s.op s.acc = some v ∧
       t = respond v { s with items := rest, dstate := .terminated })) := by
  rw [decPhase, readDState_dec hp] at h
  cases hd : s.dstate with
  | terminated => simp [hd] at h
  | reading =>
    refine ⟨rfl, ?_⟩
    simp only [hd] at h
    cases hi : s.items with
    | nil => simp only [hi, Host.Outcome.next.injEq] at h; exact .inl ⟨rfl, h.symm⟩
    | cons it rest =>
      simp only [hi] at h
      cases it with
      | inByte b =>
        rw [decStep, readAcc_dec (by exact hp), readIdx_dec (by exact hp)] at h
        cases hc : continues b with
        | true =>
          simp only [hc, if_true, Host.Outcome.next.injEq] at h
          exact .inr (.inl ⟨b, rest, rfl, hc, h.symm⟩)
        | false =>
          simp only [hc, Bool.false_eq_true, if_false] at h
          obtain ⟨v, hv, hf⟩ | ⟨-, hf⟩ := finish_dec (s := { s with
            items := rest, acc := accumulate s.acc s.idx b, idx := s.idx + 1, dstate := .terminated }) hp
          · rw [hf, Host.Outcome.next.injEq] at h
            exact .inr (.inr (.inl ⟨b, rest, v, rfl, hc, hv, h.symm⟩))
          · rw [hf] at h; cases h
      | inEow =>
        rw [decStep] at h
        obtain ⟨v, hv, hf⟩ | ⟨-, hf⟩ := finish_dec (s := { s with items := rest, dstate := .terminated }) hp
        · rw [hf, Host.Outcome.next.injEq] at h
          exact .inr (.inr (.inr ⟨rest, v, rfl, hv, h.symm⟩))
        · rw [hf] at h; cases h

/-- A decode in progress whose selector is not reserved, and which is `Reading`, never faults. -/
theorem decPhase_total {s : State} (hp : s.phase = .dec) (hd : s.dstate = .reading)
    (ho : s.op.extractLsb' 1 2 ≠ 0b11#2) : ∃ t, decPhase s = .next t := by
  rw [decPhase, readDState_dec hp]
  simp only [hd]
  cases hi : s.items with
  | nil => exact ⟨s, rfl⟩
  | cons it rest =>
    cases it with
    | inByte b =>
      simp only [decStep]
      rw [readAcc_dec (by exact hp), readIdx_dec (by exact hp)]
      cases hc : continues b with
      | true => exact ⟨_, rfl⟩
      | false =>
        obtain ⟨v, hv⟩ := decodeResult_some ho (accumulate s.acc s.idx b)
        simp only [Bool.false_eq_true, if_false]
        obtain ⟨v, -, hf⟩ | ⟨hn, -⟩ := finish_dec (s := { s with
          items := rest, acc := accumulate s.acc s.idx b, idx := s.idx + 1, dstate := .terminated }) hp
        · exact ⟨_, hf⟩
        · simp [hv] at hn
    | inEow =>
      obtain ⟨v, hv⟩ := decodeResult_some ho s.acc
      obtain ⟨v, -, hf⟩ | ⟨hn, -⟩ := finish_dec (s := { s with items := rest, dstate := .terminated }) hp
      · exact ⟨_, hf⟩
      · simp [hv] at hn

/-! ### Acceptance and serving -/

/-- What acceptance can answer. -/
theorem accept_next {op : Sel} {x : Operand} {s t : State} (h : accept op x s = .next t) :
    ∃ o, decodeSelector op = some o ∧
      ((o.dir = .encode ∧ ∃ r, operandRem o x = some r ∧ t = acceptEncode op r s) ∨
       (o.dir = .decode ∧ x = .offered ∧ t = acceptDecode op s)) := by
  unfold accept at h
  cases ho : decodeSelector op with
  | none => simp [ho, refuse] at h
  | some o =>
    refine ⟨o, rfl, ?_⟩
    simp only [ho] at h
    cases hd : o.dir with
    | encode =>
      simp only [hd] at h
      cases hr : operandRem o x with
      | none => simp [hr, refuse] at h
      | some r => simp only [hr, Host.Outcome.next.injEq] at h; exact .inl ⟨rfl, r, rfl, h.symm⟩
    | decode =>
      simp only [hd] at h
      cases x with
      | offered => simp only [Host.Outcome.next.injEq] at h; exact .inr ⟨rfl, rfl, h.symm⟩
      | _ => simp [refuse] at h

/-- Acceptance never faults. -/
theorem accept_no_fault (op : Sel) (x : Operand) (s : State) (f : Fault) : accept op x s ≠ .fault f := by
  unfold accept
  cases ho : decodeSelector op with
  | none => simp [refuse]
  | some o =>
    cases hd : o.dir with
    | encode => cases hr : operandRem o x <;> simp [refuse, hd, hr]
    | decode => cases x <;> simp [refuse, hd]

/-- What serving a request in `Idle` can answer. -/
theorem serve_next {s t : State} (h : serve s = .next t) :
    (s.requests = [] ∧ t = s) ∨
    (∃ r rest i, s.requests = r :: rest ∧ r.level = .transaction ∧ decodeRequest r.op r.operand = .ok i ∧
      exec i { s with requests := rest } = .next t) ∨
    (∃ r rest, s.requests = r :: rest ∧ r.level = .streaming ∧
      accept r.op r.operand { s with requests := rest } = .next t) := by
  rw [serve] at h
  cases hr : s.requests with
  | nil => simp only [hr, Host.Outcome.next.injEq] at h; exact .inl ⟨rfl, h.symm⟩
  | cons r rest =>
    simp only [hr, serveRequest] at h
    cases hl : r.level with
    | transaction =>
      simp only [hl] at h
      cases hd : decodeRequest r.op r.operand with
      | error e => cases e <;> simp [hd, refuse] at h
      | ok i => simp only [hd] at h; exact .inr (.inl ⟨r, rest, i, rfl, hl, hd, h⟩)
    | streaming => simp only [hl] at h; exact .inr (.inr ⟨r, rest, rfl, hl, h⟩)

/-- Serving a request in `Idle` never faults. -/
theorem serve_no_fault {s : State} (hp : s.phase = .idle) (f : Fault) : serve s ≠ .fault f := by
  rw [serve]
  cases hr : s.requests with
  | nil => simp
  | cons r rest =>
    simp only [serveRequest]
    cases hl : r.level with
    | streaming => exact accept_no_fault _ _ _ _
    | transaction =>
      cases hd : decodeRequest r.op r.operand with
      | error e => cases e <;> simp [refuse]
      | ok i =>
        simp only
        rcases exec_idle i (s := { s with requests := rest }) hp with ⟨-, x, -, h⟩ | ⟨-, w, f', -, -, h⟩ <;> simp [h]

/-! ### One step -/

/-- Which part of the block a step is. -/
theorem step_reset {s : State} (h : s.resetLine = true) : step s = .next (applyReset s) := by
  simp [step, stepBlock, h]

theorem step_idle {s : State} (hr : s.resetLine = false) (hp : s.phase = .idle) : step s = serve s := by
  simp [step, stepBlock, hr, hp]

theorem step_enc {s : State} (hr : s.resetLine = false) (hp : s.phase = .enc) : step s = encStep s := by
  simp [step, stepBlock, hr, hp]

theorem step_dec {s : State} (hr : s.resetLine = false) (hp : s.phase = .dec) : step s = decPhase s := by
  simp [step, stepBlock, hr, hp]

/-- Everything a step can answer as a next state. -/
theorem step_cases {s t : State} (h : step s = .next t) :
    (s.resetLine = true ∧ t = applyReset s) ∨
    (s.resetLine = false ∧ s.phase = .idle ∧ serve s = .next t) ∨
    (s.resetLine = false ∧ s.phase = .enc ∧ 127 < s.rem.toNat ∧
      t = { emit (continuationByte s.rem) false s with rem := s.rem >>> 7 }) ∨
    (s.resetLine = false ∧ s.phase = .enc ∧ s.rem.toNat ≤ 127 ∧
      t = { emit (finalByte s.rem) true s with phase := .idle }) ∨
    (s.resetLine = false ∧ s.phase = .dec ∧ decPhase s = .next t) := by
  cases hr : s.resetLine with
  | true => rw [step_reset hr] at h; simp at h; exact .inl ⟨rfl, h.symm⟩
  | false =>
    cases hp : s.phase with
    | idle => rw [step_idle hr hp] at h; exact .inr (.inl ⟨rfl, rfl, h⟩)
    | dec => rw [step_dec hr hp] at h; exact .inr (.inr (.inr (.inr ⟨rfl, rfl, h⟩)))
    | enc =>
      rw [step_enc hr hp, encStep_enc hp] at h
      split at h
      · simp only [Host.Outcome.next.injEq] at h; exact .inr (.inr (.inl ⟨rfl, rfl, ‹_›, h.symm⟩))
      · simp only [Host.Outcome.next.injEq] at h
        exact .inr (.inr (.inr (.inl ⟨rfl, rfl, by omega, h.symm⟩)))

/-! ### A run as its host sees it, and several instances -/

/-- What a run goes on from: the step's next state, or what a refusal leaves. -/
theorem proceed_cases {s t : State} (h : proceed s = some t) :
    step s = .next t ∨ ∃ why, step s = .refused why ∧ t = afterRefusal s := by
  rw [proceed] at h
  cases hs : step s with
  | next u => simp only [hs, Option.some.injEq] at h; exact .inl (by rw [h])
  | fault f => simp [hs] at h
  | refused why => simp only [hs, Option.some.injEq] at h; exact .inr ⟨why, rfl, h.symm⟩

theorem proceed_next {s t : State} (h : step s = .next t) : proceed s = some t := by rw [proceed, h]

theorem proceed_refused {s : State} {why : Refusal} (h : step s = .refused why) : proceed s = some (afterRefusal s) := by
  rw [proceed, h]

/-- Stepping an instance replaces its own state by the one its run goes on from. -/
theorem stepInstance_cases {k : Nat} {bs cs : List State} (h : stepInstance k bs = some cs) :
    ∃ s t, bs[k]? = some s ∧ proceed s = some t ∧ cs = bs.set k t := by
  simp only [stepInstance, Option.map_eq_some_iff, Option.bind_eq_some_iff] at h
  obtain ⟨t, ⟨s, hs, ht⟩, rfl⟩ := h
  exact ⟨s, t, hs, ht, rfl⟩

theorem stepInstance_some {k : Nat} {bs : List State} {s t : State} (hs : bs[k]? = some s) (ht : proceed s = some t) :
    stepInstance k bs = some (bs.set k t) := by simp [stepInstance, hs, ht]

/-! ### Many steps -/

theorem runSteps_zero (s : State) : runSteps 0 s = .next s := rfl

theorem runSteps_succ {s t : State} (h : step s = .next t) (k : Nat) : runSteps (k + 1) s = runSteps k t := by
  rw [runSteps, h]

/-- Steps one after another. -/
theorem runSteps_add : ∀ (j k : Nat) {s t : State}, runSteps j s = .next t → runSteps (j + k) s = runSteps k t
  | 0, k, s, t, h => by
    rw [runSteps_zero, Host.Outcome.next.injEq] at h
    rw [h, Nat.zero_add]
  | j + 1, k, s, t, h => by
    cases hs : step s with
    | next u =>
      rw [runSteps_succ hs] at h
      rw [Nat.add_right_comm, runSteps_succ hs]
      exact runSteps_add j k h
    | fault f => rw [runSteps, hs] at h; cases h
    | refused r => rw [runSteps, hs] at h; cases h

theorem runSteps_fault {s : State} {f : Fault} (h : step s = .fault f) (k : Nat) : runSteps (k + 1) s = .fault f := by
  rw [runSteps, h]

theorem runSteps_refused {s : State} {r : Refusal} (h : step s = .refused r) (k : Nat) :
    runSteps (k + 1) s = .refused r := by
  rw [runSteps, h]

/-- One step of the host's run. -/
theorem coreRun_succ (M : Host.Core) (k : Nat) (s : M.State) {o : Host.Outcome M.State M.Fault M.Refusal}
    (h : M.step s = o) :
    M.run (k + 1) s = (match (motive := _ → Host.Outcome M.State M.Fault M.Refusal) o with
      | .next t => M.run k t
      | .fault f => .fault f
      | .refused r => .refused r) := by
  cases h' : M.step s <;> simp [Host.Core.run, ← h, h']

/-- `runSteps` is the host's run of the machine. -/
theorem runSteps_eq_coreRun : ∀ (k : Nat) (s : State), runSteps k s = Host.Core.run Sys2Proof.core k s
  | 0, _ => rfl
  | k + 1, s => by
    cases h : step s with
    | next t => exact (runSteps_succ h k).trans ((runSteps_eq_coreRun k t).trans (coreRun_succ Sys2Proof.core k s h).symm)
    | fault f => exact (runSteps_fault h k).trans (coreRun_succ Sys2Proof.core k s h).symm
    | refused r => exact (runSteps_refused h k).trans (coreRun_succ Sys2Proof.core k s h).symm

end Sys2Proof.Machine
end

