-- ==== Sys2Proof/Laws/PerInstr.lean ====
section
/-! SUPPORT. The family `RequestForm`: what every operation, as syntax, is asked for by. One lemma per constructor. -/

namespace Sys2Proof.Laws.RequestForm

/-- The request that asks for an operation is well formed (R22, R23, R69), names it by a selector that decodes to it (R68), and
decodes back to it with its operand (R70). -/
def Statement (i : Instr) : Prop :=
  (encode i).wellFormed = true ∧ decodeSelector (encode i).op = some i.operation ∧
  decodeRequest (encode i).op (encode i).operand = .ok i

theorem encU16 (v : BitVec 16) : Statement (.encU16 v) := ⟨wellFormed_encode _, decodeSelector_selector _, decodeRequest_ok (decodeSelector_selector _) rfl⟩
theorem encS16 (v : BitVec 16) : Statement (.encS16 v) := ⟨wellFormed_encode _, decodeSelector_selector _, decodeRequest_ok (decodeSelector_selector _) rfl⟩
theorem encU32 (v : BitVec 32) : Statement (.encU32 v) := ⟨wellFormed_encode _, decodeSelector_selector _, decodeRequest_ok (decodeSelector_selector _) rfl⟩
theorem encS32 (v : BitVec 32) : Statement (.encS32 v) := ⟨wellFormed_encode _, decodeSelector_selector _, decodeRequest_ok (decodeSelector_selector _) rfl⟩
theorem encU64 (v : BitVec 64) : Statement (.encU64 v) := ⟨wellFormed_encode _, decodeSelector_selector _, decodeRequest_ok (decodeSelector_selector _) rfl⟩
theorem encS64 (v : BitVec 64) : Statement (.encS64 v) := ⟨wellFormed_encode _, decodeSelector_selector _, decodeRequest_ok (decodeSelector_selector _) rfl⟩
theorem decU16 (w : List Byte) : Statement (.decU16 w) := ⟨wellFormed_encode _, decodeSelector_selector _, decodeRequest_ok (decodeSelector_selector _) rfl⟩
theorem decS16 (w : List Byte) : Statement (.decS16 w) := ⟨wellFormed_encode _, decodeSelector_selector _, decodeRequest_ok (decodeSelector_selector _) rfl⟩
theorem decU32 (w : List Byte) : Statement (.decU32 w) := ⟨wellFormed_encode _, decodeSelector_selector _, decodeRequest_ok (decodeSelector_selector _) rfl⟩
theorem decS32 (w : List Byte) : Statement (.decS32 w) := ⟨wellFormed_encode _, decodeSelector_selector _, decodeRequest_ok (decodeSelector_selector _) rfl⟩
theorem decU64 (w : List Byte) : Statement (.decU64 w) := ⟨wellFormed_encode _, decodeSelector_selector _, decodeRequest_ok (decodeSelector_selector _) rfl⟩
theorem decS64 (w : List Byte) : Statement (.decS64 w) := ⟨wellFormed_encode _, decodeSelector_selector _, decodeRequest_ok (decodeSelector_selector _) rfl⟩

end Sys2Proof.Laws.RequestForm
end

