-- ==== Sys2Proof/Laws/Zigzag.lean ====
section
/-! SUPPORT. The zigzag transform: the value of each direction. -/

namespace Sys2Proof.Machine

/-- Shifting out all but the sign leaves the sign everywhere. -/
theorem sshiftRight_sign {A : Nat} (p : BitVec A) :
    p.sshiftRight (A - 1) = if p.msb then BitVec.allOnes A else 0#A := by
  ext i hi
  rw [BitVec.getElem_sshiftRight]
  by_cases h0 : i = 0
  · subst h0
    have : p[A - 1 + 0]'(by omega) = p.msb := by simp [BitVec.msb_eq_getLsbD_last, BitVec.getLsbD_eq_getElem (show A - 1 < A by omega)]
    rw [dif_pos (by omega), this]
    cases p.msb <;> simp
  · rw [dif_neg (by omega)]
    cases p.msb <;> simp

/-- The mask of the inverse transform: all ones for an odd value, else zero. -/
theorem neg_and_one {A : Nat} (z : BitVec A) : -(z &&& 1#A) = if z.getLsbD 0 then BitVec.allOnes A else 0#A := by
  cases h : z.getLsbD 0 with
  | false =>
    have : z &&& 1#A = 0#A := by
      rw [BitVec.and_one_eq_setWidth_ofBool_getLsbD, h]; simp
    simp [this]
  | true =>
    have : z &&& 1#A = 1#A := by
      rw [BitVec.and_one_eq_setWidth_ofBool_getLsbD, h]
      apply BitVec.eq_of_toNat_eq
      simp [BitVec.toNat_setWidth]
    rw [this, if_pos rfl, BitVec.neg_one_eq_allOnes]

/-- The forward transform, by sign. -/
theorem zigzagFwd_eq {A : Nat} (p : BitVec A) : zigzagFwd p = if p.msb then ~~~(p <<< 1) else p <<< 1 := by
  rw [zigzagFwd, sshiftRight_sign]
  cases p.msb <;> simp

/-- The inverse transform, by parity. -/
theorem zigzagInv_eq {A : Nat} (z : BitVec A) :
    zigzagInv z = if z.getLsbD 0 then ~~~(z.sshiftRight 1) else z.sshiftRight 1 := by
  rw [zigzagInv, neg_and_one]
  cases z.getLsbD 0 <;> simp

theorem getLsbD_zero_iff {A : Nat} (z : BitVec A) : z.getLsbD 0 = true ↔ z.toNat % 2 = 1 := by
  simp [BitVec.getLsbD, Nat.testBit_zero]

/-- The closed form of the forward transform, for every value whose double fits. -/
theorem zigzagFwd_value {A : Nat} (p : BitVec A) (hA : 2 ≤ A) (h1 : -2 ^ (A - 2) ≤ p.toInt) (h2 : p.toInt < 2 ^ (A - 2)) :
    ((zigzagFwd p).toNat : Int) = if 0 ≤ p.toInt then 2 * p.toInt else -2 * p.toInt - 1 := by
  have hpow : (2 : Int) ^ A = 4 * 2 ^ (A - 2) := by
    obtain ⟨k, rfl⟩ : ∃ k, A = k + 2 := ⟨A - 2, by omega⟩
    rw [Nat.add_sub_cancel, pow_add]; ring
  have hpowN : 2 ^ A = 4 * 2 ^ (A - 2) := by exact_mod_cast hpow
  have hc : ((2 ^ (A - 2) : Nat) : Int) = 2 ^ (A - 2) := by push_cast; rfl
  generalize hq : (2 : Int) ^ (A - 2) = q at *
  generalize hr : (2 : Nat) ^ (A - 2) = r at *
  generalize hs : (2 : Nat) ^ A = m at *
  have hlt := p.isLt
  have hsh : (p <<< 1).toNat = 2 * p.toNat % 2 ^ A := by
    rw [BitVec.toNat_shiftLeft, Nat.shiftLeft_eq, Nat.mul_comm]
  rw [zigzagFwd_eq]
  have hti := BitVec.toInt_eq_msb_cond p
  cases hm : p.msb with
  | false =>
    simp only [hm, Bool.false_eq_true, if_false] at hti ⊢
    rw [if_pos (by omega), hsh, Nat.mod_eq_of_lt (by omega)]
    push_cast; omega
  | true =>
    simp only [hm, if_true] at hti ⊢
    have hneg : ¬ 0 ≤ p.toInt := by omega
    rw [if_neg hneg, BitVec.toNat_not, hsh]
    have : 2 * p.toNat % 2 ^ A = 2 * p.toNat - 2 ^ A := by
      rw [Nat.mod_eq_sub_mod (by omega), Nat.mod_eq_of_lt (by omega)]
    rw [this]
    omega

/-- The closed form of the inverse transform. -/
theorem zigzagInv_value {A : Nat} (z : BitVec A) :
    2 * (zigzagInv z).toInt = if z.toNat % 2 = 0 then z.toInt else -(z.toInt + 1) := by
  have hs : (z.sshiftRight 1).toInt = z.toInt / 2 := by
    rw [BitVec.toInt_sshiftRight, Int.shiftRight_eq_div_pow]; rfl
  have hpar : z.toInt % 2 = (z.toNat % 2 : Int) := by
    rw [BitVec.toInt_eq_msb_cond]
    rcases Nat.eq_zero_or_pos A with rfl | hA
    · simp [BitVec.eq_nil z]
    · obtain ⟨k, rfl⟩ : ∃ k, A = k + 1 := ⟨A - 1, by omega⟩
      split
      · rw [pow_succ]; push_cast; omega
      · rfl
  have hnot : 0 < A → ∀ x : BitVec A, (~~~x).toInt = -x.toInt - 1 := by
    intro hA x
    have hm : (~~~x).msb = !x.msb := by simp [BitVec.msb_not, hA]
    have hlt := x.isLt
    rw [BitVec.toInt_eq_msb_cond, BitVec.toInt_eq_msb_cond, hm, BitVec.toNat_not]
    have hc : ((2 ^ A : Nat) : Int) = 2 ^ A := by push_cast; rfl
    generalize (2 : Nat) ^ A = m at *
    cases x.msb <;> simp only [Bool.not_true, Bool.not_false, Bool.false_eq_true, if_true, if_false] <;> omega
  rw [zigzagInv_eq]
  by_cases ho : z.toNat % 2 = 1
  · have hA : 0 < A := by
      rcases Nat.eq_zero_or_pos A with rfl | hA
      · simp [BitVec.eq_nil z] at ho
      · exact hA
    rw [if_pos ((getLsbD_zero_iff z).mpr ho), if_neg (by omega), hnot hA, hs]
    omega
  · have : z.getLsbD 0 = false := by
      rw [Bool.eq_false_iff, ne_eq, getLsbD_zero_iff]; exact ho
    have he : z.toNat % 2 = 0 := by omega
    rw [this, if_pos he]
    simp only [Bool.false_eq_true, if_false]
    rw [hs]; omega

/-- The forward transform of a sign-extended operand. -/
theorem zigzagFwd_signExtend {w A : Nat} (v : BitVec w) (hw : w < A) :
    ((zigzagFwd (v.signExtend A)).toNat : Int) = if 0 ≤ v.toInt then 2 * v.toInt else -2 * v.toInt - 1 := by
  have hs : (v.signExtend A).toInt = v.toInt := BitVec.toInt_signExtend_of_le (by omega)
  rcases Nat.eq_zero_or_pos w with rfl | h0
  · have hv : v.toInt = 0 := by simp [BitVec.eq_nil v]
    have hz : v.signExtend A = 0#A := by
      apply BitVec.eq_of_toInt_eq
      rw [hs]; simp [hv]
    rw [hz, hv, zigzagFwd_eq]
    simp
  · have h1 := BitVec.le_toInt v
    have h2 := BitVec.toInt_lt (x := v)
    have h3 : (2 : Int) ^ (w - 1) ≤ 2 ^ (A - 2) := pow_le_pow_right₀ (by norm_num) (by omega)
    have := zigzagFwd_value (v.signExtend A) (by omega) (by rw [hs]; omega) (by rw [hs]; omega)
    rwa [hs] at this

/-- The low bits of the inverse transform. -/
theorem zigzagInv_setWidth {A w : Nat} (z : BitVec A) (hw : w + 1 ≤ A) :
    (zigzagInv z).setWidth w = z.extractLsb' 1 w ^^^ (if z.getLsbD 0 then BitVec.allOnes w else 0) := by
  ext i hi
  rw [zigzagInv_eq]
  cases hz : z.getLsbD 0 <;>
    simp [BitVec.getLsbD_sshiftRight, BitVec.getElem_extractLsb', show 1 + i < A by omega, show ¬ A ≤ i by omega]
  intro
  omega

end Sys2Proof.Machine
end

