-- ==== Sys2Proof/Tests/Slice0.lean ====
section
/-! SUPPORT. Tests of the model and witnesses of the statements' hypotheses. Expected values come from spec/95_test_vectors.md
and from the encodings of R66 to R71, written out by hand. -/

namespace Sys2Proof.Tests

open Sys2Proof Sys2Proof.Machine

/-! ### Helpers -/

/-- An idle block with these requests and items. -/
def idleWith (rs : List Request) (its : List Item) : State := { State.reset with requests := rs, items := its }

/-- A block that is emitting. -/
def encoding (op : Sel) (x : Acc) : State := { State.reset with phase := .enc, op := op, rem := x }

/-- A block that is consuming. -/
def decoding (op : Sel) (z : Acc) (i : Nat) (its : List Item) : State :=
  { State.reset with phase := .dec, op := op, acc := z, idx := i, items := its }

/-- What an outcome has sent, and the phase it leaves. -/
def observe : Outcome → Option (List Output × Phase)
  | .next t => some (t.out, t.phase)
  | _ => none

/-- The whole responses of an outcome. -/
def answers : Outcome → Option (List Response)
  | .next t => some (responses t.out)
  | _ => none

/-- The reason of a refusal. -/
def refusalOf : Outcome → Option Refusal
  | .refused r => some r
  | _ => none

/-! ### Well-formedness: each check refuses an ill-formed term (R12, R22, R23, R69, R71) -/

theorem test_wf_reserved_selector : Request.wellFormed ⟨.transaction, 0b0110#4, .value64 0⟩ = false := by decide
theorem test_wf_operand_width : Request.wellFormed ⟨.transaction, 0b0000#4, .value32 0⟩ = false := by decide
theorem test_wf_operand_kind : Request.wellFormed ⟨.transaction, 0b1000#4, .value16 0⟩ = false := by decide
theorem test_wf_operand_level : Request.wellFormed ⟨.streaming, 0b1000#4, .window []⟩ = false := by decide
theorem test_wf_admits : Request.wellFormed ⟨.streaming, 0b1101#4, .offered⟩ = true := by decide
theorem test_domain_unsigned : inDomain .unsigned .w16 65536 = false ∧ inDomain .unsigned .w16 (-1) = false ∧
    inDomain .unsigned .w16 65535 = true := by decide
theorem test_domain_signed : inDomain .signed .w16 32768 = false ∧ inDomain .signed .w16 (-32769) = false ∧
    inDomain .signed .w16 (-32768) = true := by decide
theorem test_byte_literal : byteLiteral 0x100 = false ∧ byteLiteral 0xFF = true := by decide

/-! ### Decoding: words written out from R66 to R68 -/

/-- `DIR = 0`, `WID = 00`, `SGN = 0`: `ENC.U16 0xCAFE`, the operand's low byte first. -/
theorem test_decode_encU16 : decodeTableWord 24 0xCAFE00 = some (.encU16 0xCAFE#16) := by decide
/-- `DIR = 0`, `WID = 00`, `SGN = 1`. -/
theorem test_decode_encS16 : decodeTableWord 8 0b0001 = some (.encS16 0#16) := by decide
/-- `DIR = 0`, `WID = 01`, `SGN = 0`. -/
theorem test_decode_encU32 : decodeTableWord 40 0x8000012C02 = some (.encU32 0x8000012C#32) := by decide
/-- `DIR = 0`, `WID = 01`, `SGN = 1`. -/
theorem test_decode_encS32 : decodeTableWord 8 0b0011 = some (.encS32 0#32) := by decide
/-- `DIR = 0`, `WID = 10`, `SGN = 0`. -/
theorem test_decode_encU64 : decodeTableWord 8 0b0100 = some (.encU64 0#64) := by decide
/-- `DIR = 0`, `WID = 10`, `SGN = 1`; program P4's first operand. -/
theorem test_decode_encS64 : decodeTableWord 72 0x800000000000000005 = some (.encS64 0x8000000000000000#64) := by decide
/-- `DIR = 1`, `WID = 00`, `SGN = 0`; the window `[AC 02]`. -/
theorem test_decode_decU16 : decodeTableWord 24 0x02AC08 = some (.decU16 [0xAC#8, 0x02#8]) := by decide
/-- `DIR = 1`, `WID = 00`, `SGN = 1`. -/
theorem test_decode_decS16 : decodeTableWord 24 0x04D709 = some (.decS16 [0xD7#8, 0x04#8]) := by decide
/-- `DIR = 1`, `WID = 01`, `SGN = 0`. -/
theorem test_decode_decU32 : decodeTableWord 8 0b1010 = some (.decU32 []) := by decide
/-- `DIR = 1`, `WID = 01`, `SGN = 1`. -/
theorem test_decode_decS32 : decodeTableWord 16 0x800B = some (.decS32 [0x80#8]) := by decide
/-- `DIR = 1`, `WID = 10`, `SGN = 0`. -/
theorem test_decode_decU64 : decodeTableWord 32 0x0395FE0C = some (.decU64 [0xFE#8, 0x95#8, 0x03#8]) := by decide
/-- `DIR = 1`, `WID = 10`, `SGN = 1`. -/
theorem test_decode_decS64 : decodeTableWord 8 0b1101 = some (.decS64 []) := by decide
/-- `WID = 11` (R69). -/
theorem test_decode_reserved : decodeTableWord 8 0b0110 = none ∧ decodeTableWord 8 0b0111 = none ∧
    decodeTableWord 8 0b1110 = none ∧ decodeTableWord 8 0b1111 = none := by decide

/-- Every row of the table is the first thing to run after reset. -/
theorem test_first_request : ∀ w : Sel, selectorAdmitted w = true →
    (observe (step (State.reset.withFetchWord 8 w.toNat))).isSome = true := by decide

/-! ### One step per operation (95_test_vectors.md, 2.4 and 2.5) -/

/-- P1: the bytes and their end markers. -/
theorem test_encU16_cafe : observe (exec (.encU16 0xCAFE#16) State.reset) =
    some ([.emit 0xFE#8 false, .emit 0x95#8 false, .emit 0x03#8 true], .idle) := by decide
theorem test_encU16_max : answers (exec (.encU16 65535#16) State.reset) =
    some [.bytesOut [0xFF#8, 0xFF#8, 0x03#8]] := by decide
theorem test_encS16_min : answers (exec (.encS16 0x8000#16) State.reset) =
    some [.bytesOut [0xFF#8, 0xFF#8, 0x03#8]] := by decide
theorem test_encS16_100 : answers (exec (.encS16 100#16) State.reset) = some [.bytesOut [0xC8#8, 0x01#8]] := by decide
theorem test_encU32_step : answers (exec (.encU32 268435456#32) State.reset) =
    some [.bytesOut [0x80#8, 0x80#8, 0x80#8, 0x80#8, 0x01#8]] := by decide
theorem test_encS32_300 : answers (exec (.encS32 (BitVec.ofInt 32 (-300))) State.reset) =
    some [.bytesOut [0xD7#8, 0x04#8]] := by decide
theorem test_encU64_top : answers (exec (.encU64 0x8000000000000000#64) State.reset) =
    some [.bytesOut (List.replicate 9 0x80#8 ++ [0x01#8])] := by decide
theorem test_encS64_max : answers (exec (.encS64 0x7FFFFFFFFFFFFFFF#64) State.reset) =
    some [.bytesOut (0xFE#8 :: (List.replicate 8 0xFF#8 ++ [0x01#8]))] := by decide
theorem test_decU16_narrowing : observe (exec (.decU16 [0xFF#8, 0xFF#8, 0x07#8]) State.reset) =
    some ([.respond (.v16 0xFFFF#16)], .idle) := by decide
theorem test_decU16_beyond : answers (exec (.decU16 (List.replicate 19 0x80#8 ++ [0x01#8])) State.reset) =
    some [.valueOut (.v16 0#16)] := by decide
theorem test_decS16_whole_accumulator : answers (exec (.decS16 [0x80#8, 0x80#8, 0x04#8]) State.reset) =
    some [.valueOut (.v16 0x8000#16)] := by decide
theorem test_decU32_short_read : answers (exec (.decU32 [0xFF#8, 0xFF#8]) State.reset) =
    some [.valueOut (.v32 16383#32)] := by decide
theorem test_decS32_wraps : answers (exec (.decS32 [0x80#8, 0x80#8, 0x80#8, 0x80#8, 0x10#8]) State.reset) =
    some [.valueOut (.v32 0x80000000#32)] := by decide
theorem test_decU64_max : answers (exec (.decU64 (List.replicate 9 0xFF#8 ++ [0x03#8])) State.reset) =
    some [.valueOut (.v64 0xFFFFFFFFFFFFFFFF#64)] := by decide
theorem test_decS64_bit64 : answers (exec (.decS64 (List.replicate 9 0x80#8 ++ [0x02#8])) State.reset) =
    some [.valueOut (.v64 0x8000000000000000#64)] := by decide
theorem test_decS64_bit65 : answers (exec (.decS64 (List.replicate 9 0x80#8 ++ [0x04#8])) State.reset) =
    some [.valueOut (.v64 0#64)] := by decide

/-! ### The codec and the transform (95_test_vectors.md, 2.2 and 2.3) -/

/-- R86: the nineteenth byte gives its two low payload bits. -/
theorem test_decodeAcc_edge :
    decodeAcc 128 (List.replicate 18 0x80#8 ++ [0x7F#8]) = (BitVec.ofNat 128 (3 * 2 ^ 126), 19) := by decide
theorem test_decodeAcc_trailing : decodeAcc 128 [0xAC#8, 0x02#8, 0xFF#8, 0xFF#8] = (300#128, 2) := by decide
theorem test_zigzagFwd : zigzagFwd (BitVec.ofInt 128 (-300)) = 599#128 ∧ zigzagFwd (300#128) = 600#128 ∧
    zigzagFwd (BitVec.ofInt 128 (-2 ^ 63)) = BitVec.ofNat 128 (2 ^ 64 - 1) := by decide
/-- The last one tells the arithmetic shift from a logical one (D17). -/
theorem test_zigzagInv : (zigzagInv (599#128)).toInt = -300 ∧ (zigzagInv (65537#128)).toInt = -32769 ∧
    zigzagInv (BitVec.allOnes 128) = 0#128 := by decide

/-! ### Streaming steps: the traces of P1 and P3 -/

theorem test_stream_accept_encode :
    step (idleWith [⟨.streaming, 0b0000#4, .value16 0xCAFE#16⟩] []) = .next (encoding 0b0000#4 51966#128) := rfl
theorem test_stream_first_byte :
    step (encoding 0b0000#4 51966#128) =
      .next { encoding 0b0000#4 405#128 with out := [.emit 0xFE#8 false] } := rfl
theorem test_stream_last_byte :
    step (encoding 0b0000#4 3#128) =
      .next { encoding 0b0000#4 3#128 with phase := .idle, out := [.emit 0x03#8 true] } := rfl
theorem test_stream_accept_decode :
    step { idleWith [⟨.streaming, 0b1000#4, .offered⟩] [.inByte 0xFE#8] with acc := 7, idx := 9, dstate := .terminated } =
      .next (decoding 0b1000#4 0 0 [.inByte 0xFE#8]) := rfl
theorem test_stream_second_item :
    step (decoding 0b1000#4 0x7E#128 1 [.inByte 0x95#8]) = .next (decoding 0b1000#4 0xAFE#128 2 []) := rfl
theorem test_stream_terminator :
    observe (step (decoding 0b1000#4 0xAFE#128 2 [.inByte 0x03#8, .inEow])) =
      some ([.respond (.v16 0xCAFE#16)], .idle) := by decide
theorem test_stream_end_of_window :
    observe (step (decoding 0b1010#4 0x3FFF#128 2 [.inEow])) = some ([.respond (.v32 16383#32)], .idle) := by decide

/-! ### Refusal, reset, host side -/

theorem test_refuses_reserved :
    refusalOf (step (idleWith [⟨.transaction, 0b0110#4, .value64 0⟩] [])) = some (.reservedSelector 0b0110#4) := by decide
theorem test_refuses_misfit :
    refusalOf (step (idleWith [⟨.transaction, 0b0000#4, .window []⟩] [])) = some (.operandForm 0b0000#4) := by decide
/-- R180: an encode is abandoned; the host discards what it had sent of it. -/
theorem test_reset_discards :
    observe (step { encoding 0b0000#4 405#128 with resetLine := true, out := [.emit 0x01#8 true, .emit 0xFE#8 false] }) =
      some ([.emit 0x01#8 true, .emit 0xFE#8 false], .idle) ∧
    discardUnfinished [.emit 0x01#8 true, .emit 0xFE#8 false] = [.emit 0x01#8 true] := by decide
/-- R191: an abandoned encode never ends, a reset in `Idle` abandons nothing. -/
theorem test_reset_ends_nothing :
    (proceed (assertReset (encoding 0b0000#4 405#128))).map (·.abandoned) = some true ∧
    (proceed (assertReset State.reset)).map (·.abandoned) = some false := by decide
/-- R168: a refused instance goes on to its next request, and the other keeps its response. -/
theorem test_refused_instance_goes_on :
    (((stepInstance 0 [idleWith [⟨.transaction, 0b0110#4, .value64 0⟩, encode (.encU16 3#16)] [], encoding 0b0000#4 3#128]).bind
      (stepInstance 1)).bind (stepInstance 0)).map (·.map fun s => (s.refusalMark, responses s.out)) =
      some [(true, [.bytesOut [0x03#8]]), (false, [.bytesOut [0x03#8]])] := by decide
/-- P2: the framing of the buffer `[AC 02 D7 04 7F]`. -/
theorem test_framing : frame [0xAC#8, 0x02#8, 0xD7#8, 0x04#8, 0x7F#8] =
    some ([0xAC#8, 0x02#8], [0xD7#8, 0x04#8, 0x7F#8]) := by decide
/-- R71: `ENC.U16 0xCAFE`. -/
theorem test_assemble_hex : (assemble "ENC.U16 0xCAFE").toOption =
    some ⟨.transaction, 0b0000#4, .value16 0xCAFE#16⟩ := by decide
theorem test_assemble_window : (assemble "DEC.S32 [0xD7, 0x04]").toOption =
    some ⟨.transaction, 0b1011#4, .window [0xD7#8, 0x04#8]⟩ := by decide
/-- Log entry 17: a byte of one digit; letters that are no digits are refused. -/
theorem test_assemble_digits : (assemble "DEC.U16 [0x5, 0xac]").toOption =
      some ⟨.transaction, 0b1000#4, .window [0x05#8, 0xAC#8]⟩ ∧
    (assemble "ENC.U16 0xCAFG").toOption = none ∧ (assemble "ENC.U16 12A").toOption = none ∧
    (assemble "DEC.U16 [0x100]").toOption = none := by decide
theorem test_assemble_range : (assemble "ENC.S16 32768").toOption = none ∧
    (assemble "ENC.S64 -9223372036854775808").toOption =
      some ⟨.transaction, 0b0101#4, .value64 0x8000000000000000#64⟩ := by decide
/-- P3, last line: the operand is the value of an earlier decode. -/
theorem test_line_bound_operand :
    (runLine 5 (.enc .w16 .unsigned (.bound 3)) (State.reset, [(3, .unsigned, .valueOut (.v32 16383#32))])).map (·.2.head?) =
      some (some (5, .unsigned, .bytesOut [0xFF#8, 0x7F#8])) := by decide
/-- P4, last line: a refused request leaves the mark. -/
theorem test_line_refused :
    (runLine 3 (.raw 0b0110#4 (.value64 0)) (State.reset, [])).map (fun p => (p.1.refusalMark, p.1.phase, p.2)) =
      some (true, .idle, []) := by decide

/-! ### Witnesses: states and operands that meet the hypotheses of the statements together, one for each clause -/

/-- StepRunsRequest. -/
theorem witness_StepRunsRequest :
    let s := idleWith [⟨.transaction, 0b0000#4, .value16 300#16⟩, encode (.decU64 [])] [.inEow]
    s.resetLine = false ∧ s.phase = .idle ∧ s.requests = ⟨.transaction, 0b0000#4, .value16 300#16⟩ :: [encode (.decU64 [])] ∧
      decodeRequest 0b0000#4 (.value16 300#16) = .ok (.encU16 300#16) := ⟨rfl, rfl, rfl, rfl⟩

/-- AcceptWritesStart: the state's hypotheses are met by every selector and operand; the clauses' own hypotheses follow. -/
theorem witness_AcceptWritesStart (op : Sel) (x : Operand) :
    let s := { idleWith [⟨.streaming, op, x⟩] [.inEow] with acc := 7, idx := 3, dstate := .terminated }
    s.resetLine = false ∧ s.phase = .idle ∧ s.requests = ⟨.streaming, op, x⟩ :: [] := ⟨rfl, rfl, rfl⟩
theorem witness_AcceptWritesStart_reserved : (0b0110#4).extractLsb' 1 2 = 0b11#2 ∧ (0b1111#4).extractLsb' 1 2 = 0b11#2 := by
  decide
theorem witness_AcceptWritesStart_encode :
    (∃ v op, Operand.value16 0xFFFF#16 = .value16 v ∧ op = 0b0000#4) ∧
    (∃ v op, Operand.value16 0x8000#16 = .value16 v ∧ op = 0b0001#4) ∧
    (∃ v op, Operand.value32 0xFFFFFFFF#32 = .value32 v ∧ op = 0b0010#4) ∧
    (∃ v op, Operand.value32 0x80000000#32 = .value32 v ∧ op = 0b0011#4) ∧
    (∃ v op, Operand.value64 0xFFFFFFFFFFFFFFFF#64 = .value64 v ∧ op = 0b0100#4) ∧
    (∃ v op, Operand.value64 0x8000000000000000#64 = .value64 v ∧ op = 0b0101#4) :=
  ⟨⟨_, _, rfl, rfl⟩, ⟨_, _, rfl, rfl⟩, ⟨_, _, rfl, rfl⟩, ⟨_, _, rfl, rfl⟩, ⟨_, _, rfl, rfl⟩, ⟨_, _, rfl, rfl⟩⟩
theorem witness_AcceptWritesStart_decode : (0b1000#4).getLsbD 3 = true ∧ (0b1000#4).extractLsb' 1 2 ≠ 0b11#2 ∧
    (0b1101#4).getLsbD 3 = true ∧ (0b1101#4).extractLsb' 1 2 ≠ 0b11#2 := by decide

/-- ReservedSelectorRefused, at both levels. -/
theorem witness_ReservedSelectorRefused (lvl : Level) :
    let s := idleWith [⟨lvl, 0b1110#4, .window [0x00#8]⟩] []
    s.resetLine = false ∧ s.phase = .idle ∧ s.requests = ⟨lvl, 0b1110#4, .window [0x00#8]⟩ :: [] ∧
      (0b1110#4).extractLsb' 1 2 = 0b11#2 := ⟨rfl, rfl, rfl, by decide⟩

/-- WellFormedRequestServed: a request of each level that is served, and one that does not fit. -/
theorem witness_WellFormedRequestServed (r : Request) :
    let s := idleWith [r] []
    s.resetLine = false ∧ s.phase = .idle ∧ s.requests = r :: [] := ⟨rfl, rfl, rfl⟩
theorem witness_WellFormedRequestServed_forms :
    Request.wellFormed ⟨.transaction, 0b1101#4, .window []⟩ = true ∧
    Request.wellFormed ⟨.streaming, 0b0101#4, .value64 0⟩ = true ∧
    selectorAdmitted 0b0101#4 = true ∧ operandFits ⟨.streaming, 0b0101#4, .value32 0⟩ = false := by decide

/-- RefusalMarkKept: a step that answers, and one that is refused again. -/
theorem witness_RefusalMarkKept :
    let s := { idleWith [encode (.encU16 0#16)] [] with refusalMark := true }
    let r := { idleWith [⟨.transaction, 0b0111#4, .window []⟩] [] with refusalMark := true }
    s.refusalMark = true ∧ (∃ t, proceed s = some t) ∧ r.refusalMark = true ∧ (∃ t, proceed r = some t) ∧
      ∃ why, step r = .refused why := ⟨rfl, ⟨_, rfl⟩, rfl, ⟨_, rfl⟩, _, rfl⟩

/-- BusyHoldsRequests, for an encode and for a decode in progress. -/
theorem witness_BusyHoldsRequests :
    let s := encoding 0b0000#4 128#128
    let d := decoding 0b1101#4 0 0 [.inByte 0x80#8]
    s.phase ≠ .idle ∧ s.resetLine = false ∧ (∃ t, step s = .next t) ∧
      d.phase ≠ .idle ∧ d.resetLine = false ∧ ∃ t, step d = .next t :=
  ⟨by decide, rfl, ⟨_, rfl⟩, by decide, rfl, ⟨_, rfl⟩⟩

/-- The twelve operations' statements, ResponseFromRequestAlone, SignedEncodeIsUnsignedOfZigzag,
SignedDecodeUsesWholeAccumulator and OperationRoundTrip: two different idle states. -/
theorem witness_Idle :
    State.reset.phase = .idle ∧ (idleWith [encode (.decU16 [])] [.inByte 0xFF#8]).phase = .idle := ⟨rfl, rfl⟩

/-- OperationFrame: an encode and a decode. -/
theorem witness_OperationFrame :
    State.reset.phase = .idle ∧
    (∃ t, exec (.encS64 (-1#64)) State.reset = .next t) ∧ (Instr.encS64 (-1#64)).operation.dir = .encode ∧
    (∃ t, exec (.decU32 [0x80#8]) State.reset = .next t) ∧ (Instr.decU32 [0x80#8]).operation.dir = .decode :=
  ⟨rfl, ⟨_, rfl⟩, rfl, ⟨_, rfl⟩, rfl⟩

/-- A state of the invariant in each busy phase, at the edge of what the invariant allows. -/
theorem encoding_inv : Inv (encoding 0b0000#4 65535#128) := by
  refine ⟨fun _ => ⟨⟨.encode, .w16, .unsigned⟩, by decide, rfl, by decide⟩, fun h => absurd h (by decide), fun b last h => ?_⟩
  simp [encoding, State.reset] at h
theorem decoding_inv : Inv (decoding 0b1101#4 127#128 1 [.inByte 0x01#8]) := by
  refine ⟨fun h => absurd h (by decide), fun _ => ⟨⟨⟨.decode, .w64, .signed⟩, by decide, rfl⟩, rfl, by decide⟩, fun b last h => ?_⟩
  simp [decoding, State.reset] at h

/-- NoException. -/
theorem witness_NoException :
    State.reset.phase = .idle ∧ Inv (encoding 0b0000#4 65535#128) ∧ Inv (decoding 0b1101#4 127#128 1 [.inByte 0x01#8]) :=
  ⟨rfl, encoding_inv, decoding_inv⟩

/-- EncoderSteps: both sides of the boundary, and a step count below the length. -/
theorem witness_EncoderSteps :
    let s := encoding 0b0000#4 128#128
    let e := encoding 0b0000#4 127#128
    s.phase = .enc ∧ s.resetLine = false ∧ 127 < s.rem.toNat ∧ 1 < (encodeAcc s.rem).length ∧
      e.phase = .enc ∧ e.resetLine = false ∧ e.rem.toNat ≤ 127 ∧ 0 < (encodeAcc e.rem).length := by decide

/-- DecoderSteps: the four clauses. -/
theorem witness_DecoderSteps (its : List Item) :
    let s := decoding 0b1101#4 127#128 1 its
    s.phase = .dec ∧ s.dstate = .reading ∧ s.resetLine = false ∧ s.op.extractLsb' 1 2 ≠ 0b11#2 ∧ s.items = its :=
  ⟨rfl, rfl, rfl, (by decide : (0b1101#4).extractLsb' 1 2 ≠ 0b11#2), rfl⟩
theorem witness_DecoderSteps_clauses :
    (∃ rest, (decoding 0b1101#4 127#128 1 [.inByte 0x80#8, .inEow]).items = .inByte 0x80#8 :: rest) ∧
    (0x80#8).getLsbD 7 = true ∧
    (∃ rest, (decoding 0b1101#4 127#128 1 [.inByte 0x7F#8]).items = .inByte 0x7F#8 :: rest) ∧ (0x7F#8).getLsbD 7 = false ∧
    (∃ rest, (decoding 0b1101#4 127#128 1 [.inEow]).items = .inEow :: rest) ∧
    (decoding 0b1101#4 127#128 1 []).items = [] :=
  ⟨⟨_, rfl⟩, by decide, ⟨_, rfl⟩, by decide, ⟨_, rfl⟩, rfl⟩

/-- DecodeWaitsForItem: a decode with nothing offered, and a step that leaves `Dec`. -/
theorem witness_DecodeWaitsForItem :
    let s := decoding 0b1000#4 0 0 []
    let e := decoding 0b1000#4 0 0 [.inEow]
    s.phase = .dec ∧ s.dstate = .reading ∧ s.resetLine = false ∧ s.items = [] ∧
      e.phase = .dec ∧ e.resetLine = false ∧ ∃ t, step e = .next t ∧ t.phase ≠ .dec :=
  ⟨rfl, rfl, rfl, rfl, rfl, rfl, _, rfl, by decide⟩

/-- StreamingEncodeAgrees. -/
theorem witness_StreamingEncodeAgrees :
    let i := Instr.encS16 0x8000#16
    let s := idleWith [⟨.streaming, 0b0001#4, .value16 0x8000#16⟩] []
    i.operation.dir = .encode ∧ s.resetLine = false ∧ s.phase = .idle ∧
      s.requests = ⟨.streaming, i.selector, i.operand⟩ :: [] := ⟨rfl, rfl, rfl, rfl⟩

/-- StreamingDecodeAgrees: a terminated window with a byte after it, and a short read. -/
theorem witness_StreamingDecodeAgrees :
    let i := Instr.decU16 [0xAC#8, 0x02#8, 0x01#8]
    let s := idleWith [⟨.streaming, 0b1000#4, .offered⟩] (windowItems [0xAC#8, 0x02#8, 0x01#8] ++ [.inByte 0x05#8])
    let e := idleWith [⟨.streaming, 0b1000#4, .offered⟩] (windowItems [])
    i.operand = .window [0xAC#8, 0x02#8, 0x01#8] ∧ s.resetLine = false ∧ s.phase = .idle ∧
      s.requests = ⟨.streaming, i.selector, .offered⟩ :: [] ∧
      s.items = windowItems [0xAC#8, 0x02#8, 0x01#8] ++ [.inByte 0x05#8] ∧ shortRead [0xAC#8, 0x02#8, 0x01#8] = false ∧
      (Instr.decU16 []).operand = .window [] ∧ e.resetLine = false ∧ e.phase = .idle ∧
      e.requests = ⟨.streaming, (Instr.decU16 []).selector, .offered⟩ :: [] ∧ e.items = windowItems [] ++ [] ∧
      shortRead [] = true := ⟨rfl, rfl, rfl, rfl, rfl, rfl, rfl, rfl, rfl, rfl, rfl, rfl⟩

/-- StepKeepsInterface: a step of each phase. -/
theorem witness_StepKeepsInterface :
    (∃ t, step (idleWith [encode (.encU16 300#16)] []) = .next t) ∧ (∃ t, step (encoding 0b0000#4 128#128) = .next t) ∧
    ∃ t, step (decoding 0b1000#4 0 0 [.inByte 0x80#8]) = .next t := ⟨⟨_, rfl⟩, ⟨_, rfl⟩, ⟨_, rfl⟩⟩

/-- ResetAbandons: an encode in progress, and a run that goes on after an operation was abandoned. -/
theorem witness_ResetAbandons :
    let s := assertReset (encoding 0b0000#4 405#128)
    let r := { State.reset with abandoned := true }
    s.resetLine = true ∧ s.phase ≠ .idle ∧ (∃ t, step s = .next t) ∧ r.abandoned = true ∧ ∃ t, proceed r = some t :=
  ⟨rfl, by decide, ⟨_, rfl⟩, rfl, _, rfl⟩

/-- UnsetReadsFault. -/
theorem witness_UnsetReadsFault : State.reset.phase = .idle := rfl

/-- StepKeepsInvariant, in each busy phase. -/
theorem witness_StepKeepsInvariant :
    (Inv (encoding 0b0000#4 65535#128) ∧ ∃ t, step (encoding 0b0000#4 65535#128) = .next t) ∧
    Inv (decoding 0b1101#4 127#128 1 [.inByte 0x01#8]) ∧ ∃ t, step (decoding 0b1101#4 127#128 1 [.inByte 0x01#8]) = .next t :=
  ⟨⟨encoding_inv, _, rfl⟩, decoding_inv, _, rfl⟩

/-- NoStateAcrossOperations: registers that differ, requests and items alike, three steps. -/
theorem witness_NoStateAcrossOperations :
    let s := idleWith [⟨.streaming, 0b1000#4, .offered⟩] [.inByte 0x80#8, .inEow]
    let r := { s with op := 0b0101#4, rem := 9, acc := 300, idx := 2, dstate := .terminated }
    s.phase = .idle ∧ r.phase = .idle ∧ s.requests = r.requests ∧ s.items = r.items ∧ s.resetLine = r.resetLine ∧
      ∃ t, runSteps 3 s = .next t := ⟨rfl, rfl, rfl, rfl, rfl, _, rfl⟩

/-- InstancesIndependent: an instance that steps, one that is refused, one of the invariant, and both orders of two. -/
theorem witness_InstancesIndependent :
    let bs := [idleWith [⟨.transaction, 0b0111#4, .window []⟩] [], encoding 0b0000#4 65535#128]
    bs[0]? = some (idleWith [⟨.transaction, 0b0111#4, .window []⟩] []) ∧
      (∃ why, step (idleWith [⟨.transaction, 0b0111#4, .window []⟩] []) = .refused why) ∧
      bs[1]? = some (encoding 0b0000#4 65535#128) ∧ (∃ t, step (encoding 0b0000#4 65535#128) = .next t) ∧
      Inv (encoding 0b0000#4 65535#128) ∧ (∃ cs, stepInstance 1 bs = some cs) ∧ (0 : Nat) ≠ 1 :=
  ⟨rfl, ⟨_, rfl⟩, rfl, ⟨_, rfl⟩, encoding_inv, ⟨_, rfl⟩, by decide⟩

/-- EncodeShape: the value of one byte at its edge, and one with a byte before its last. -/
theorem witness_EncodeShape :
    (127#128).toNat ≤ 127 ∧ 0 + 1 < (encodeAcc (128#128)).length ∧ 1 < (encodeAcc (128#128)).length ∧
      0x00#8 ∈ encodeAcc (0#128) := by decide

/-- EncodeLength: each clause at a power of 128. -/
theorem witness_EncodeLength :
    (127#128).toNat < 128 ∧ 1 ≤ 2 ∧ 128 ≤ (128#128).toNat ∧ (127#128).toNat ≤ (128#128).toNat ∧ 1 ≤ 1 ∧
      (128#128).toNat = 128 ^ 1 ∧ (∀ c ∈ [0x80#8, 0x81#8], c.getLsbD 7 = true) ∧ (0x00#8).getLsbD 7 = false ∧
      Nat.ofDigits 128 (([0x80#8, 0x81#8] ++ [0x00#8]).map fun c => (c.setWidth 7).toNat) = (128#128).toNat := by decide

/-- EncodeMaximumLengths: the two ends of each range. -/
theorem witness_EncodeMaximumLengths :
    (65535#128).toNat < 2 ^ 16 ∧ 2 ^ 14 ≤ (16384#128).toNat ∧ (16384#128).toNat < 2 ^ 16 ∧
    (4294967295#128).toNat < 2 ^ 32 ∧ 2 ^ 28 ≤ (268435456#128).toNat ∧ (268435456#128).toNat < 2 ^ 32 ∧
    (BitVec.ofNat 128 (2 ^ 64 - 1)).toNat < 2 ^ 64 ∧ 2 ^ 63 ≤ (BitVec.ofNat 128 (2 ^ 63)).toNat ∧
    (BitVec.ofNat 128 (2 ^ 63)).toNat < 2 ^ 64 ∧ (1 ≤ 1 ∧ 1 ≤ 10) ∧ 1 ≤ 10 ∧ 10 ≤ 10 := by decide

/-- TrailingBytesIgnored. -/
theorem witness_TrailingBytesIgnored : ∃ b ∈ [0xAC#8, 0x02#8], b.getLsbD 7 = false := by decide

/-- ShortReadAccumulates. -/
theorem witness_ShortReadAccumulates : ∀ b ∈ [0xFF#8, 0xFF#8], b.getLsbD 7 = true := by decide

/-- ConsumedCount: a terminator at index 0, one at index 1, none. -/
theorem witness_ConsumedCount :
    [0x00#8, 0xFF#8] = [] ++ 0x00#8 :: [0xFF#8] ∧ [0x80#8, 0x7F#8] = [0x80#8] ++ 0x7F#8 :: [] ∧
    (∀ c ∈ [0x80#8], c.getLsbD 7 = true) ∧ (0x00#8).getLsbD 7 = false ∧ (0x7F#8).getLsbD 7 = false ∧
    (∀ b ∈ [0x80#8, 0xFF#8], b.getLsbD 7 = true) ∧ (decodeAcc 128 []).2 = 0 := by decide

/-- NonMinimalAccepted: `[FF 80 00]` beside `[FF 00]`. -/
theorem witness_NonMinimalAccepted :
    (∀ c ∈ [0xFF#8], c.getLsbD 7 = true) ∧ (0x00#8).getLsbD 7 = false ∧ [0xFF#8] ++ [0x00#8 ||| 0x80#8, 0x00#8] =
      [0xFF#8, 0x80#8, 0x00#8] := by decide

/-- FramingFindsWindow. -/
theorem witness_FramingFindsWindow :
    frame [0x80#8, 0x00#8, 0xFF#8] = some ([0x80#8, 0x00#8], [0xFF#8]) ∧ frame [0x80#8] = none := by decide

/-- ZigzagForwardClosedForm: the two ends of the range. -/
theorem witness_ZigzagForwardClosedForm :
    -2 ^ 63 ≤ (BitVec.ofInt 128 (-2 ^ 63)).toInt ∧ (BitVec.ofInt 128 (-2 ^ 63)).toInt < 2 ^ 63 ∧
    -2 ^ 63 ≤ (BitVec.ofInt 128 (2 ^ 63 - 1)).toInt ∧ (BitVec.ofInt 128 (2 ^ 63 - 1)).toInt < 2 ^ 63 := by decide

/-- ZigzagBijection. -/
theorem witness_ZigzagBijection : 65535 < 2 ^ Width.w16.bits ∧
    zigzagFwd ((0x8000#16).signExtend 128) = zigzagFwd ((0x8000#16).signExtend 128) := ⟨by decide, rfl⟩

/-- ZigzagInverseClosedForm: even, odd, below the sign bit. -/
theorem witness_ZigzagInverseClosedForm :
    (BitVec.ofNat 128 (2 ^ 127)).toNat % 2 = 0 ∧ (BitVec.allOnes 128).toNat % 2 = 1 ∧
    (BitVec.ofNat 128 (2 ^ 127 - 1)).toNat < 2 ^ 127 := by decide

/-- InverseLowBitsOnly: the largest width an accumulator admits, and both parities. -/
theorem witness_InverseLowBitsOnly :
    127 + 1 ≤ 128 ∧ (65536 : Nat) = (65536#128).toNat % 2 ^ (16 + 1) ∧ 65536 % 2 = 0 ∧
    (65537 : Nat) = (65537#128).toNat % 2 ^ (16 + 1) ∧ 65537 % 2 = 1 := by decide

/-- ZigzagInverseLaw: the smallest accumulator for 64 bits. -/
theorem witness_ZigzagInverseLaw : (64 : Nat) < 65 := by decide

/-- NarrowingTruncates: the six selectors and a value that overflows each width. -/
theorem witness_NarrowingTruncates :
    decodeResult 0b1000#4 (65536#128) = some (.v16 0#16) ∧ (0b1000#4).getLsbD 0 = false ∧
    decodeResult 0b1001#4 (65536#128) = some (.v16 0x8000#16) ∧ (0b1001#4).getLsbD 0 = true ∧
    decodeResult 0b1010#4 (4294967296#128) = some (.v32 0#32) ∧ (0b1010#4).getLsbD 0 = false ∧
    decodeResult 0b1011#4 (4294967296#128) = some (.v32 0x80000000#32) ∧ (0b1011#4).getLsbD 0 = true ∧
    decodeResult 0b1100#4 (BitVec.ofNat 128 (2 ^ 64)) = some (.v64 0#64) ∧ (0b1100#4).getLsbD 0 = false ∧
    decodeResult 0b1101#4 (BitVec.ofNat 128 (2 ^ 64)) = some (.v64 0x8000000000000000#64) ∧ (0b1101#4).getLsbD 0 = true := by
  decide

/-- OneByteEncodings: two values in zigzag order. -/
theorem witness_OneByteEncodings :
    (zigzagFwd ((63#16).signExtend 128)).toNat ≤ (zigzagFwd ((BitVec.ofInt 16 (-64)).signExtend 128)).toNat := by decide

/-- SignedDecodeUsesWholeAccumulator: the largest value below `2^16`. -/
theorem witness_SignedDecodeUsesWholeAccumulator : (65535#128).toNat < 2 ^ Width.w16.bits ∧ State.reset.phase = .idle := by
  decide

/-- AccumulatorWidthUnobservable: the smallest accumulator and the widest operand. -/
theorem witness_AccumulatorWidthUnobservable : (65 : Nat) ≤ 65 ∧ (64 : Nat) ≤ 64 := by decide

/-- ResultBits: accumulators that differ above the bits that count, and the fewest continuation bytes. -/
theorem witness_ResultBits :
    selWidth 0b1000#4 = some .w16 ∧ (0b1000#4).getLsbD 0 = false ∧
    (65536#128).setWidth Width.w16.bits = (0#128).setWidth Width.w16.bits ∧
    (131072#128).setWidth (Width.w16.bits + 1) = (0#128).setWidth (Width.w16.bits + 1) ∧
    (∀ b ∈ [0x80#8, 0x80#8, 0x84#8], b.getLsbD 7 = true) ∧ Width.w16.bits < 7 * [0x80#8, 0x80#8, 0x84#8].length ∧
    selWidth 0b1101#4 = some .w64 ∧ Width.w64.bits < 7 * (List.replicate 10 0x80#8).length := by decide

/-- AssemblerRanges: the values on both sides of each limit. -/
theorem witness_AssemblerRanges :
    inDomain .unsigned .w16 65536 = false ∧ inDomain .unsigned .w16 65535 = true ∧
    inDomain .signed .w64 (-2 ^ 63 - 1) = false ∧ inDomain .signed .w64 (-2 ^ 63) = true ∧
    (∃ n ∈ [0x100], 0xFF < n) ∧ ∀ n ∈ [0x00, 0xFF], n ≤ 0xFF := by decide

end Sys2Proof.Tests
end

section
/-! PROOFS. No response depends on the accumulator's width (R149). A narrower accumulator holds the low bits of a wider one
(R86), and the answer of a decode needs one bit more than its own width (R105, R141). -/

namespace Sys2Proof.Machine

/-! ### A narrower accumulator holds the low bits of a wider one (R86) -/

theorem accumulate_setWidth {A n : Nat} (h : n ≤ A) (acc : BitVec A) (i : Nat) (b : Byte) :
    (accumulate acc i b).setWidth n = accumulate (acc.setWidth n) i b := by
  ext k hk
  simp [accumulate, show k < A by omega]

theorem decodeLoop_setWidth {A n : Nat} (h : n ≤ A) (s : List Byte) : ∀ (acc : BitVec A) (i : Nat),
    (decodeLoop s acc i).1.setWidth n = (decodeLoop s (acc.setWidth n) i).1 := by
  induction s with
  | nil => intro acc i; rfl
  | cons b s ih =>
    intro acc i
    cases hb : continues b with
    | true => rw [decodeLoop_continue hb, decodeLoop_continue hb, ih, accumulate_setWidth h]
    | false => rw [decodeLoop_stop hb, decodeLoop_stop hb, accumulate_setWidth h]

theorem decodeAcc_setWidth {A n : Nat} (h : n ≤ A) (s : List Byte) :
    (decodeAcc A s).1.setWidth n = (decodeAcc n s).1 := by
  simp [decodeAcc, decodeLoop_setWidth h]

/-! ### What of the accumulator reaches an answer (R105, R141) -/

/-- Patterns of any two lengths that agree below `n` agree below every smaller bound. -/
theorem setWidth_congr_of_le {A B m n : Nat} {z : BitVec A} {z' : BitVec B} (hmn : m ≤ n)
    (h : z.setWidth n = z'.setWidth n) : z.setWidth m = z'.setWidth m := by
  rw [← BitVec.setWidth_setWidth_of_le z hmn, h, BitVec.setWidth_setWidth_of_le z' hmn]

theorem valueOf_congr {A B : Nat} {z : BitVec A} {z' : BitVec B} (w : Width)
    (h : z.setWidth w.bits = z'.setWidth w.bits) : valueOf w z = valueOf w z' := by
  cases w with
  | w16 => exact congrArg Value.v16 h
  | w32 => exact congrArg Value.v32 h
  | w64 => exact congrArg Value.v64 h

/-- The low `w` bits of the inverse transform come from the low `w + 1` bits. -/
theorem zigzagInv_setWidth_congr {A B w : Nat} {z : BitVec A} {z' : BitVec B} (hA : w + 1 ≤ A) (hB : w + 1 ≤ B)
    (h : z.setWidth (w + 1) = z'.setWidth (w + 1)) : (zigzagInv z).setWidth w = (zigzagInv z').setWidth w := by
  have hbit : ∀ k < w + 1, z.getLsbD k = z'.getLsbD k := fun k hk => by
    simpa [hk] using congrArg (BitVec.getLsbD · k) h
  have hext : z.extractLsb' 1 w = z'.extractLsb' 1 w := by
    ext k hk
    rw [BitVec.getElem_extractLsb', BitVec.getElem_extractLsb', hbit (1 + k) (by omega)]
  rw [zigzagInv_setWidth z hA, zigzagInv_setWidth z' hB, hbit 0 (by omega), hext]

/-- The answer of a decode of width `w` comes from the low `w + 1` bits of the accumulator, whatever its length. -/
theorem decodeResult_congr {A B : Nat} {z : BitVec A} {z' : BitVec B} {op : Sel} {w : Width} (hw : selWidth op = some w)
    (hA : w.bits + 1 ≤ A) (hB : w.bits + 1 ≤ B) (h : z.setWidth (w.bits + 1) = z'.setWidth (w.bits + 1)) :
    decodeResult op z = decodeResult op z' := by
  simp only [decodeResult, hw, Option.map_some]
  cases selSign op with
  | unsigned => exact congrArg some (valueOf_congr w (setWidth_congr_of_le (Nat.le_succ _) h))
  | signed => exact congrArg some (valueOf_congr w (zigzagInv_setWidth_congr hA hB h))

/-- Under a reserved selector there is no answer, whatever the accumulator. -/
theorem decodeResult_none {A : Nat} {op : Sel} (hw : selWidth op = none) (z : BitVec A) : decodeResult op z = none := by
  rw [decodeResult, hw, Option.map_none]

theorem width_bits_le (w : Width) : w.bits ≤ 64 := by
  cases w <;> decide

/-- The answer of a decode is the same for any two accumulators of at least 65 bits (R149). -/
theorem decodeResult_decodeAcc_congr {A B : Nat} (hA : 65 ≤ A) (hB : 65 ≤ B) (op : Sel) (s : List Byte) :
    decodeResult op (decodeAcc A s).1 = decodeResult op (decodeAcc B s).1 := by
  cases hw : selWidth op with
  | none => rw [decodeResult_none hw, decodeResult_none hw]
  | some w =>
    have hA' : w.bits + 1 ≤ A := by have := width_bits_le w; omega
    have hB' : w.bits + 1 ≤ B := by have := width_bits_le w; omega
    exact decodeResult_congr hw hA' hB' (by rw [decodeAcc_setWidth hA', decodeAcc_setWidth hB'])

/-! ### What an encode starts from, in accumulators of two lengths (R64, R100) -/

theorem encodeAcc_setWidth_congr {n A B : Nat} (v : BitVec n) (hA : n ≤ A) (hB : n ≤ B) :
    encodeAcc (v.setWidth A) = encodeAcc (v.setWidth B) :=
  encodeAcc_congr _ _ (by rw [BitVec.toNat_setWidth_of_le hA, BitVec.toNat_setWidth_of_le hB])

theorem encodeAcc_zigzagFwd_signExtend_congr {n A B : Nat} (v : BitVec n) (hA : n < A) (hB : n < B) :
    encodeAcc (zigzagFwd (v.signExtend A)) = encodeAcc (zigzagFwd (v.signExtend B)) :=
  encodeAcc_congr _ _ (Int.ofNat_inj.mp ((zigzagFwd_signExtend v hA).trans (zigzagFwd_signExtend v hB).symm))

/-- Settles O57: a decode's answer by the accumulator's low 65 bits, an encoding by the value it starts from. -/
theorem accumulatorWidthUnobservable : Obligations.AccumulatorWidthUnobservable := by
  intro A hA
  refine ⟨decodeResult_decodeAcc_congr hA (by decide), fun n v hn => ⟨?_, ?_⟩⟩
  · exact encodeAcc_setWidth_congr v (by omega) (by omega)
  · exact encodeAcc_zigzagFwd_signExtend_congr v (by omega) (by omega)

end Sys2Proof.Machine
end

section
/-! PROOFS. The state from one step to the next (10_state.md): every transition of the block as one relation, equivalent to
`step`, and what each transition keeps of the invariant, the interface and the agreement of two blocks. -/

namespace Sys2Proof.Machine

/-! ### The block's transitions -/

/-- One transition of the block: every way in which a step answers a next state, with its guard (`step_next_iff`). -/
inductive Transition (s : State) : State → Prop where
  /-- R164, R180. -/
  | reset (hr : s.resetLine = true) : Transition s (applyReset s)
  /-- R24, R28: no request is presented. -/
  | idleWait (hr : s.resetLine = false) (hp : s.phase = .idle) (hq : s.requests = []) : Transition s s
  /-- A whole encode (R91, R120 to R125). -/
  | wholeEncode {r : Request} {rest : List Request} {i : Instr} {x : Acc} (hr : s.resetLine = false) (hp : s.phase = .idle)
      (hq : s.requests = r :: rest) (hl : r.level = .transaction) (hi : decodeRequest r.op r.operand = .ok i)
      (hd : i.operation.dir = .encode) (hx : operandRem i.operation i.operand = some x) :
      Transition s (runEncode i.selector x { s with requests := rest })
  /-- A whole decode (R92, R142 to R147). -/
  | wholeDecode {r : Request} {rest : List Request} {i : Instr} {w : List Byte} {f : Acc → Value} (hr : s.resetLine = false)
      (hp : s.phase = .idle) (hq : s.requests = r :: rest) (hl : r.level = .transaction)
      (hi : decodeRequest r.op r.operand = .ok i) (hd : i.operation.dir = .decode) (hw : i.operand = .window w)
      (hf : ∀ z, decodeResult i.selector z = some (f z)) :
      Transition s (runDecode i.selector w f { s with requests := rest })
  /-- Acceptance of a streaming encode (R181). -/
  | beginEncode {r : Request} {rest : List Request} {o : Operation} {x : Acc} (hr : s.resetLine = false)
      (hp : s.phase = .idle) (hq : s.requests = r :: rest) (hl : r.level = .streaming) (ho : decodeSelector r.op = some o)
      (hd : o.dir = .encode) (hx : operandRem o r.operand = some x) :
      Transition s (acceptEncode r.op x { s with requests := rest })
  /-- Acceptance of a streaming decode (R181). -/
  | beginDecode {r : Request} {rest : List Request} {o : Operation} (hr : s.resetLine = false) (hp : s.phase = .idle)
      (hq : s.requests = r :: rest) (hl : r.level = .streaming) (ho : decodeSelector r.op = some o) (hd : o.dir = .decode)
      (hx : r.operand = .offered) : Transition s (acceptDecode r.op { s with requests := rest })
  /-- A byte of an encoding that is not its last (R91). -/
  | emitMore (hr : s.resetLine = false) (hp : s.phase = .enc) (hx : 127 < s.rem.toNat) :
      Transition s { emit (continuationByte s.rem) false s with rem := s.rem >>> 7 }
  /-- The last byte of an encoding (R91). -/
  | emitLast (hr : s.resetLine = false) (hp : s.phase = .enc) (hx : s.rem.toNat ≤ 127) :
      Transition s { emit (finalByte s.rem) true s with phase := .idle }
  /-- A decode with nothing offered (R186). -/
  | decodeWait (hr : s.resetLine = false) (hp : s.phase = .dec) (hd : s.dstate = .reading) (hi : s.items = []) :
      Transition s s
  /-- A byte with `C = 1` (R92). -/
  | consumeMore {b : Byte} {rest : List Item} (hr : s.resetLine = false) (hp : s.phase = .dec) (hd : s.dstate = .reading)
      (hi : s.items = .inByte b :: rest) (hc : continues b = true) :
      Transition s { s with items := rest, acc := accumulate s.acc s.idx b, idx := s.idx + 1 }
  /-- A byte with `C = 0` (R92). -/
  | consumeLast {b : Byte} {rest : List Item} {v : Value} (hr : s.resetLine = false) (hp : s.phase = .dec)
      (hd : s.dstate = .reading) (hi : s.items = .inByte b :: rest) (hc : continues b = false)
      (hv : decodeResult s.op (accumulate s.acc s.idx b) = some v) :
      Transition s (respond v { s with
        items := rest, acc := accumulate s.acc s.idx b, idx := s.idx + 1, dstate := .terminated })
  /-- The end of the window (R92). -/
  | consumeEnd {rest : List Item} {v : Value} (hr : s.resetLine = false) (hp : s.phase = .dec) (hd : s.dstate = .reading)
      (hi : s.items = .inEow :: rest) (hv : decodeResult s.op s.acc = some v) :
      Transition s (respond v { s with items := rest, dstate := .terminated })

/-- What a step takes off the interface in `Idle` is a transition. -/
theorem Transition.of_serve {s t : State} (hr : s.resetLine = false) (hp : s.phase = .idle) (h : serve s = .next t) :
    Transition s t := by
  obtain ⟨hq, rfl⟩ | ⟨r, rest, i, hq, hl, hi, he⟩ | ⟨r, rest, hq, hl, ha⟩ := serve_next h
  · exact .idleWait hr hp hq
  · obtain ⟨hd, x, hx, hn⟩ | ⟨hd, w, f, hw, hf, hn⟩ := exec_idle i (s := { s with requests := rest }) hp
    · cases hn.symm.trans he
      exact .wholeEncode hr hp hq hl hi hd hx
    · cases hn.symm.trans he
      exact .wholeDecode hr hp hq hl hi hd hw hf
  · obtain ⟨o, ho, ⟨hd, x, hx, rfl⟩ | ⟨hd, hx, rfl⟩⟩ := accept_next ha
    · exact .beginEncode hr hp hq hl ho hd hx
    · exact .beginDecode hr hp hq hl ho hd hx

theorem Transition.of_step {s t : State} (h : step s = .next t) : Transition s t := by
  obtain ⟨hr, rfl⟩ | ⟨hr, hp, h⟩ | ⟨hr, hp, hx, rfl⟩ | ⟨hr, hp, hx, rfl⟩ | ⟨hr, hp, h⟩ := step_cases h
  · exact .reset hr
  · exact .of_serve hr hp h
  · exact .emitMore hr hp hx
  · exact .emitLast hr hp hx
  · obtain ⟨hd, ⟨hi, rfl⟩ | ⟨b, rest, hi, hc, rfl⟩ | ⟨b, rest, v, hi, hc, hv, rfl⟩ | ⟨rest, v, hi, hv, rfl⟩⟩ :=
      decPhase_next hp h
    · exact .decodeWait hr hp hd hi
    · exact .consumeMore hr hp hd hi hc
    · exact .consumeLast hr hp hd hi hc hv
    · exact .consumeEnd hr hp hd hi hv

/-- In `Idle` a step serves the oldest request. -/
theorem step_idle_cons {s : State} {r : Request} {rest : List Request} (hr : s.resetLine = false) (hp : s.phase = .idle)
    (hq : s.requests = r :: rest) : step s = serveRequest r { s with requests := rest } := by
  rw [step_idle hr hp, serve, hq]

theorem serveRequest_transaction {r : Request} {i : Instr} (hl : r.level = .transaction)
    (hi : decodeRequest r.op r.operand = .ok i) (s : State) : serveRequest r s = exec i s := by
  simp only [serveRequest, hl, hi]

theorem serveRequest_streaming {r : Request} (hl : r.level = .streaming) (s : State) :
    serveRequest r s = accept r.op r.operand s := by
  simp only [serveRequest, hl]

theorem exec_encode {i : Instr} {s : State} {x : Acc} (hp : s.phase = .idle) (hd : i.operation.dir = .encode)
    (hx : operandRem i.operation i.operand = some x) : exec i s = .next (runEncode i.selector x s) := by
  obtain ⟨-, y, hy, hn⟩ | ⟨hd', -⟩ := exec_idle i hp
  · cases hy.symm.trans hx
    exact hn
  · cases hd.symm.trans hd'

theorem exec_decode {i : Instr} {s : State} {w : List Byte} {f : Acc → Value} (hp : s.phase = .idle)
    (hd : i.operation.dir = .decode) (hw : i.operand = .window w) (hf : ∀ z, decodeResult i.selector z = some (f z)) :
    exec i s = .next (runDecode i.selector w f s) := by
  obtain ⟨hd', -⟩ | ⟨-, w', g, hw', hg, hn⟩ := exec_idle i hp
  · cases hd.symm.trans hd'
  · cases hw'.symm.trans hw
    obtain rfl : g = f := funext fun z => Option.some.inj ((hg z).symm.trans (hf z))
    exact hn

theorem accept_encode {op : Sel} {x : Operand} {o : Operation} {z : Acc} (ho : decodeSelector op = some o)
    (hd : o.dir = .encode) (hx : operandRem o x = some z) (s : State) : accept op x s = .next (acceptEncode op z s) := by
  simp only [accept, ho, hd, hx]

theorem accept_decode {op : Sel} {o : Operation} (ho : decodeSelector op = some o) (hd : o.dir = .decode) (s : State) :
    accept op .offered s = .next (acceptDecode op s) := by
  simp only [accept, ho, hd]

theorem Transition.step_eq {s t : State} (h : Transition s t) : step s = .next t := by
  cases h with
  | reset hr => exact step_reset hr
  | idleWait hr hp hq => rw [step_idle hr hp, serve, hq]
  | wholeEncode hr hp hq hl hi hd hx =>
    rw [step_idle_cons hr hp hq, serveRequest_transaction hl hi, exec_encode (by exact hp) hd hx]
  | wholeDecode hr hp hq hl hi hd hw hf =>
    rw [step_idle_cons hr hp hq, serveRequest_transaction hl hi, exec_decode (by exact hp) hd hw hf]
  | beginEncode hr hp hq hl ho hd hx =>
    rw [step_idle_cons hr hp hq, serveRequest_streaming hl, accept_encode ho hd hx]
  | beginDecode hr hp hq hl ho hd hx =>
    rw [step_idle_cons hr hp hq, serveRequest_streaming hl, hx, accept_decode ho hd]
  | emitMore hr hp hx => rw [step_enc hr hp, encStep_enc hp, if_pos hx]
  | emitLast hr hp hx => rw [step_enc hr hp, encStep_enc hp, if_neg (by omega)]
  | decodeWait hr hp hd hi => simp only [step_dec hr hp, decPhase_eq hp, hd, hi]
  | consumeMore hr hp hd hi hc => simp only [step_dec hr hp, decPhase_eq hp, hd, hi, hc, if_true]
  | consumeLast hr hp hd hi hc hv =>
    simp only [step_dec hr hp, decPhase_eq hp, hd, hi, hc, hv, Bool.false_eq_true, if_false]
  | consumeEnd hr hp hd hi hv => simp only [step_dec hr hp, decPhase_eq hp, hd, hi, hv]

/-- `Transition` is `step`, as far as it answers a next state. -/
theorem step_next_iff {s t : State} : step s = .next t ↔ Transition s t := ⟨.of_step, fun h => h.step_eq⟩

/-! ### The invariant -/

/-- What `REM` is loaded with lies in `U_w` for either signedness (R64, R102). -/
theorem initialRem_lt {w : Nat} (g : Sign) (v : BitVec w) (hw : 1 ≤ w) (hA : w < Config.accWidth) :
    (initialRem g v).toNat < 2 ^ w := by
  cases g with
  | unsigned =>
    rw [initialRem, widenUnsigned, BitVec.toNat_setWidth_of_le (by omega)]
    exact v.isLt
  | signed =>
    have hz := zigzagFwd_signExtend v hA
    have hlo := BitVec.le_toInt v
    have hhi := BitVec.toInt_lt (x := v)
    have hpow : (2 : Int) ^ w = 2 * 2 ^ (w - 1) := by rw [← pow_succ', Nat.sub_add_cancel hw]
    rw [initialRem, widenSigned, ← Int.ofNat_lt, hz]
    push_cast
    split <;> omega

theorem operandRem_lt {o : Operation} {x : Operand} {z : Acc} (h : operandRem o x = some z) :
    z.toNat < 2 ^ o.width.bits := by
  obtain ⟨d, w, g⟩ := o
  cases w <;> cases x <;> simp only [operandRem, Option.some.injEq, reduceCtorEq] at h
  all_goals
    subst h
    exact initialRem_lt g _ (by decide) (by decide)

/-- Of an idle state the invariant asks only for its end markers. -/
theorem inv_of_idle {s : State} (hp : s.phase = .idle) (hm : markersSound s) : Inv s :=
  ⟨by simp [encodingSound, hp], by simp [decodingSound, hp], hm⟩

theorem inv_of_enc {s : State} {o : Operation} (hp : s.phase = .enc) (ho : decodeSelector s.op = some o)
    (hd : o.dir = .encode) (hx : s.rem.toNat < 2 ^ o.width.bits) (hm : markersSound s) : Inv s :=
  ⟨fun _ => ⟨o, ho, hd, hx⟩, by simp [decodingSound, hp], hm⟩

theorem inv_of_dec {s : State} {o : Operation} (hp : s.phase = .dec) (ho : decodeSelector s.op = some o)
    (hd : o.dir = .decode) (hs : s.dstate = .reading) (ha : s.acc.toNat < 2 ^ (7 * s.idx)) (hm : markersSound s) : Inv s :=
  ⟨by simp [encodingSound, hp], fun _ => ⟨⟨o, ho, hd⟩, hs, ha⟩, hm⟩

theorem markersSound_append {s t : State} {l : List Output} (hm : markersSound s) (ho : t.out = s.out ++ l)
    (hl : ∀ b last, Output.emit b last ∈ l → last = !continues b) : markersSound t := by
  intro b last hmem
  rw [ho, List.mem_append] at hmem
  exact hmem.elim (hm b last) (hl b last)

/-- Delivering a value sends no end marker. -/
theorem markersSound_respond {s : State} (v : Value) (hm : markersSound s) : markersSound (respond v s) :=
  markersSound_append hm (respond_out v s) (by simp)

theorem markersSound_emit {s : State} {b : Byte} {last : Bool} (hm : markersSound s) (hb : last = !continues b) :
    markersSound (emit b last s) :=
  markersSound_append hm (emit_out b last s) (by simp [hb])

theorem Transition.keeps_inv {s t : State} (h : Transition s t) (hs : Inv s) : Inv t := by
  obtain ⟨henc, hdec, hm⟩ := hs
  cases h with
  | reset => exact inv_of_idle rfl hm
  | idleWait | decodeWait => exact ⟨henc, hdec, hm⟩
  | wholeEncode => exact inv_of_idle rfl (markersSound_append hm rfl (emissions_marker _))
  | wholeDecode => exact inv_of_idle rfl (markersSound_append hm rfl (by simp))
  | beginEncode _ _ _ _ ho hd hx => exact inv_of_enc rfl ho hd (operandRem_lt hx) hm
  | beginDecode _ _ _ _ ho hd => exact inv_of_dec rfl ho hd rfl (by simp) hm
  | emitMore _ hp =>
    obtain ⟨o, ho, hd, hx⟩ := henc hp
    have hle : (s.rem >>> 7).toNat < 2 ^ o.width.bits := by rw [shift7_toNat]; omega
    exact inv_of_enc hp ho hd hle (markersSound_emit hm (by simp [continues_continuationByte]))
  | emitLast _ _ hx => exact inv_of_idle rfl (markersSound_emit hm (by simp [continues_finalByte hx]))
  | consumeMore _ hp =>
    obtain ⟨⟨o, ho, hd⟩, hs, ha⟩ := hdec hp
    exact inv_of_dec hp ho hd hs (accumulate_lt _ _ _ ha) hm
  | consumeLast | consumeEnd => exact inv_of_idle rfl (markersSound_respond _ hm)

/-- Settles O34: each transition keeps the invariant. -/
theorem stepKeepsInvariant : Obligations.StepKeepsInvariant :=
  fun _ _ hs h => (step_next_iff.mp h).keeps_inv hs

/-! ### What is sent, and what the interface keeps -/

theorem Transition.out_eq {s t : State} (h : Transition s t) : ∃ l, t.out = s.out ++ l := by
  cases h with
  | reset | idleWait | beginEncode | beginDecode | decodeWait | consumeMore => exact ⟨[], (List.append_nil _).symm⟩
  | wholeEncode | wholeDecode | emitMore | emitLast | consumeLast | consumeEnd => exact ⟨_, rfl⟩

/-- Items are consumed one at a time, by a decode in progress (R23, R190). -/
theorem Transition.items_eq {s t : State} (h : Transition s t) :
    t.items = s.items ∨ (s.phase = .dec ∧ s.resetLine = false ∧ ∃ it, s.items = it :: t.items) := by
  cases h with
  | reset | idleWait | wholeEncode | wholeDecode | beginEncode | beginDecode | emitMore | emitLast | decodeWait =>
    exact .inl rfl
  | consumeMore hr hp _ hi | consumeLast hr hp _ hi | consumeEnd hr hp _ hi => exact .inr ⟨hp, hr, _, hi⟩

/-- Requests are taken one at a time, in `Idle` (R24). -/
theorem Transition.requests_eq {s t : State} (h : Transition s t) :
    t.requests = s.requests ∨ (s.phase = .idle ∧ s.resetLine = false ∧ ∃ r, s.requests = r :: t.requests) := by
  cases h with
  | reset | idleWait | emitMore | emitLast | decodeWait | consumeMore | consumeLast | consumeEnd => exact .inl rfl
  | wholeEncode hr hp hq | wholeDecode hr hp hq | beginEncode hr hp hq | beginDecode hr hp hq =>
    exact .inr ⟨hp, hr, _, hq⟩

theorem Transition.refusalMark_eq {s t : State} (h : Transition s t) : t.refusalMark = s.refusalMark := by
  cases h <;> rfl

/-- Only a reset marks an operation as abandoned. -/
theorem Transition.abandoned_eq {s t : State} (h : Transition s t) :
    t.abandoned = (s.abandoned || (s.resetLine && s.phase != .idle)) := by
  cases hr : s.resetLine with
  | true =>
    obtain rfl : t = applyReset s := by simpa [step_reset hr, eq_comm] using h.step_eq
    rfl
  | false =>
    have hkeep : t.abandoned = s.abandoned := by
      cases h with
      | reset hr' => cases hr'.symm.trans hr
      | _ => rfl
    simp [hkeep]

/-- Settles O30: field by field, over the transitions. -/
theorem stepKeepsInterface : Obligations.StepKeepsInterface := by
  intro s t hst
  have h := step_next_iff.mp hst
  exact ⟨h.out_eq, h.items_eq, h.requests_eq, h.refusalMark_eq, h.abandoned_eq⟩

/-! ### A busy block -/

/-- A decode in progress never refuses and reads no unset register. -/
theorem decPhase_outcome {s : State} (hp : s.phase = .dec) :
    (∃ t, decPhase s = .next t) ∨ decPhase s = .fault .decodeEnded ∨ decPhase s = .fault (.reservedWidthLatched s.op) := by
  rw [decPhase_eq hp]
  cases s.dstate with
  | terminated => exact .inr (.inl rfl)
  | reading =>
    rcases s.items with - | ⟨b | -, rest⟩ <;> dsimp only
    · exact .inl ⟨_, rfl⟩
    · split
      · exact .inl ⟨_, rfl⟩
      · cases decodeResult s.op (accumulate s.acc s.idx b) with
        | some v => exact .inl ⟨_, rfl⟩
        | none => exact .inr (.inr rfl)
    · cases decodeResult s.op s.acc with
      | some v => exact .inl ⟨_, rfl⟩
      | none => exact .inr (.inr rfl)

/-- What a step of a busy block can answer. -/
theorem step_busy_outcome {s : State} (hp : s.phase ≠ .idle) (hr : s.resetLine = false) :
    (∃ t, step s = .next t) ∨ step s = .fault .decodeEnded ∨ step s = .fault (.reservedWidthLatched s.op) := by
  cases h : s.phase with
  | idle => exact absurd h hp
  | enc =>
    left
    rw [step_enc hr h, encStep_enc h]
    split <;> exact ⟨_, rfl⟩
  | dec =>
    rw [step_dec hr h]
    exact decPhase_outcome h

/-- A request presented to a busy block waits behind the others while the operation goes on (R24, R188). -/
theorem Transition.present_request {s t : State} (h : Transition s t) (hp : s.phase ≠ .idle) (hr : s.resetLine = false)
    (r : Request) : Transition (present r s) (present r t) := by
  cases h with
  | reset hr' => cases hr'.symm.trans hr
  | idleWait _ hp' | wholeEncode _ hp' | wholeDecode _ hp' | beginEncode _ hp' | beginDecode _ hp' => exact absurd hp' hp
  | emitMore hr he hx => exact .emitMore (s := present r s) hr he hx
  | emitLast hr he hx => exact .emitLast (s := present r s) hr he hx
  | decodeWait hr he hd hi => exact .decodeWait (s := present r s) hr he hd hi
  | consumeMore hr he hd hi hc => exact .consumeMore (s := present r s) hr he hd hi hc
  | consumeLast hr he hd hi hc hv => exact .consumeLast (s := present r s) hr he hd hi hc hv
  | consumeEnd hr he hd hi hv => exact .consumeEnd (s := present r s) hr he hd hi hv

/-- Settles O10: a busy block's transitions neither look at the requests nor write them. -/
theorem busyHoldsRequests : Obligations.BusyHoldsRequests := by
  intro s hp
  refine ⟨fun i => exec_busy i hp, fun hr => ⟨fun why h => ?_, fun t hst => ?_⟩⟩
  · obtain ⟨t, h'⟩ | h' | h' := step_busy_outcome hp hr <;> cases h'.symm.trans h
  · have h := step_next_iff.mp hst
    have hq : t.requests = s.requests := h.requests_eq.resolve_right fun ⟨hidle, _⟩ => hp hidle
    exact ⟨hq, fun r => (h.present_request hp hr r).step_eq⟩

/-! ### Requests in `Idle` -/

/-- Settles O5: a step in `Idle` serves the request at the head of the line. -/
theorem stepRunsRequest : Obligations.StepRunsRequest := by
  intro s r rest i hr hp hq hl hi
  rw [step_idle_cons hr hp hq, serveRequest_transaction hl hi]

theorem decodeSelector_of_admitted {op : Sel} (h : selectorAdmitted op = true) : ∃ o, decodeSelector op = some o := by
  rw [← Option.ne_none_iff_exists', ne_eq, decodeSelector_none_iff]
  simpa [selectorAdmitted] using h

/-- The bits of an operation's selector that `operandFits` reads (R66, R67). -/
theorem encodeSelector_bits (o : Operation) :
    (encodeSelector o).getLsbD 3 = decide (o.dir = .decode) ∧
      ((encodeSelector o).extractLsb' 1 2).toNat = widthCode o.width := by
  obtain ⟨d, w, g⟩ := o
  cases d <;> cases w <;> cases g <;> decide

/-- `operandFits`, by the operation the selector names. -/
theorem operandFits_eq {r : Request} {o : Operation} (ho : decodeSelector r.op = some o) :
    operandFits r = match r.level, o.dir with
      | .transaction, _ => (attachOperand o r.operand).isSome
      | .streaming, .encode => (operandRem o r.operand).isSome
      | .streaming, .decode => decide (r.operand = .offered) := by
  obtain ⟨hdir, hwid⟩ := encodeSelector_bits o
  rw [encodeSelector_of_decode ho] at hdir hwid
  obtain ⟨l, op, x⟩ := r
  obtain ⟨d, w, g⟩ := o
  simp only [operandFits, hdir, hwid]
  cases l with
  | transaction => cases d <;> cases w <;> cases g <;> cases x <;> rfl
  | streaming => cases d <;> cases w <;> cases x <;> rfl

theorem exec_idle_requests (i : Instr) {s : State} (hp : s.phase = .idle) :
    ∃ t, exec i s = .next t ∧ t.requests = s.requests := by
  obtain ⟨-, x, -, h⟩ | ⟨-, w, f, -, -, h⟩ := exec_idle i hp <;> exact ⟨_, h, rfl⟩

/-- Serving the request goes by the form of its operand: served where it fits, refused where it does not. -/
def ServedByForm (r : Request) (s : State) : Prop :=
  (operandFits r = true ∧ ∃ t, serveRequest r s = .next t ∧ t.requests = s.requests) ∨
  (operandFits r = false ∧ serveRequest r s = .refused (.operandForm r.op))

theorem servedByForm_transaction {r : Request} {o : Operation} {s : State} (ho : decodeSelector r.op = some o)
    (hl : r.level = .transaction) (hp : s.phase = .idle) : ServedByForm r s := by
  rw [ServedByForm, operandFits_eq ho, hl]
  cases hi : attachOperand o r.operand with
  | some i =>
    rw [serveRequest_transaction hl (decodeRequest_ok ho hi)]
    exact .inl ⟨rfl, exec_idle_requests i hp⟩
  | none => exact .inr ⟨rfl, by simp only [serveRequest, hl, decodeRequest, ho, hi, refuse]⟩

theorem servedByForm_streaming {r : Request} {o : Operation} (ho : decodeSelector r.op = some o)
    (hl : r.level = .streaming) (s : State) : ServedByForm r s := by
  rw [ServedByForm, operandFits_eq ho, serveRequest_streaming hl, hl]
  cases hd : o.dir with
  | encode =>
    cases hx : operandRem o r.operand with
    | some z => exact .inl ⟨rfl, _, accept_encode ho hd hx s, rfl⟩
    | none => exact .inr ⟨rfl, by simp only [accept, ho, hd, hx, refuse]⟩
  | decode =>
    cases hx : r.operand with
    | offered => exact .inl ⟨rfl, _, accept_decode ho hd s, rfl⟩
    | _ => exact .inr ⟨rfl, by simp only [accept, ho, hd, refuse]⟩

/-- Settles O8: serving a request of an admitted selector, at either level, goes by the form of its operand. -/
theorem wellFormedRequestServed : Obligations.WellFormedRequestServed := by
  intro s r rest hr hp hq
  have hform : selectorAdmitted r.op = true → ServedByForm r { s with requests := rest } := by
    intro hadm
    obtain ⟨o, ho⟩ := decodeSelector_of_admitted hadm
    cases hl : r.level with
    | transaction => exact servedByForm_transaction ho hl hp
    | streaming => exact servedByForm_streaming ho hl _
  rw [step_idle_cons hr hp hq]
  refine ⟨fun hwf => ?_, fun hadm hfit => ?_⟩
  · obtain ⟨hadm, hfit⟩ := Bool.and_eq_true_iff.mp hwf
    obtain ⟨-, hserved⟩ | ⟨hmis, -⟩ := hform hadm
    · exact hserved
    · cases hfit.symm.trans hmis
  · obtain ⟨hfit', -⟩ | ⟨-, hrefused⟩ := hform hadm
    · cases hfit'.symm.trans hfit
    · exact hrefused

/-! ### Registers that hold no value -/

/-- Settles O32: a step reads registers only in the phase that wrote them. -/
theorem unsetReadsFault : Obligations.UnsetReadsFault := by
  refine ⟨fun s hp => by simp [readOp, readRem, readAcc, readIdx, readDState, hp], fun s r h => ?_⟩
  cases hr : s.resetLine with
  | true => cases (step_reset hr).symm.trans h
  | false =>
    by_cases hp : s.phase = .idle
    · exact serve_no_fault hp _ ((step_idle hr hp).symm.trans h)
    · obtain ⟨t, h'⟩ | h' | h' := step_busy_outcome hp hr <;> cases h'.symm.trans h

/-! ### Two blocks that differ in unset registers -/

/-- Two blocks that agree in all that a step may read (R20): the interface, `PHASE`, and the registers that the operation in
progress has written. -/
structure Agree (s₁ s₂ : State) : Prop where
  resetLine : s₂.resetLine = s₁.resetLine
  phase : s₂.phase = s₁.phase
  requests : s₂.requests = s₁.requests
  items : s₂.items = s₁.items
  encoding : s₁.phase = .enc → s₂.rem = s₁.rem
  decoding : s₁.phase = .dec → s₂.op = s₁.op ∧ s₂.acc = s₁.acc ∧ s₂.idx = s₁.idx ∧ s₂.dstate = s₁.dstate

/-- On their way to `t₁` and `t₂`, two blocks have sent the same. -/
def SentAlike (s₁ s₂ t₁ t₂ : State) : Prop := ∃ l, t₁.out = s₁.out ++ l ∧ t₂.out = s₂.out ++ l

theorem sentAlike_refl (s₁ s₂ : State) : SentAlike s₁ s₂ s₁ s₂ := ⟨[], by simp⟩

theorem SentAlike.trans {s₁ s₂ t₁ t₂ u₁ u₂ : State} (h : SentAlike s₁ s₂ t₁ t₂) (h' : SentAlike t₁ t₂ u₁ u₂) :
    SentAlike s₁ s₂ u₁ u₂ := by
  obtain ⟨l, h₁, h₂⟩ := h
  obtain ⟨l', h₁', h₂'⟩ := h'
  exact ⟨l ++ l', by rw [h₁', h₁, List.append_assoc], by rw [h₂', h₂, List.append_assoc]⟩

theorem agree_of_idle {s₁ s₂ : State} (hr : s₂.resetLine = s₁.resetLine) (hp₁ : s₁.phase = .idle) (hp₂ : s₂.phase = .idle)
    (hq : s₂.requests = s₁.requests) (hi : s₂.items = s₁.items) : Agree s₁ s₂ :=
  ⟨hr, hp₂.trans hp₁.symm, hq, hi, by simp [hp₁], by simp [hp₁]⟩

/-- What one block can do, a block that agrees with it can do as well; they send the same and agree afterwards. -/
theorem Transition.simulated {s₁ s₂ t₁ : State} (h : Transition s₁ t₁) (ha : Agree s₁ s₂) :
    ∃ t₂, Transition s₂ t₂ ∧ SentAlike s₁ s₂ t₁ t₂ ∧ Agree t₁ t₂ := by
  obtain ⟨er, ep, eq, ei, henc, hdec⟩ := ha
  cases h with
  | reset hr => exact ⟨_, .reset (er.trans hr), sentAlike_refl _ _, agree_of_idle rfl rfl rfl eq ei⟩
  | idleWait hr hp hq =>
    exact ⟨_, .idleWait (er.trans hr) (ep.trans hp) (eq.trans hq), sentAlike_refl _ _, er, ep, eq, ei, henc, hdec⟩
  | wholeEncode hr hp hq hl hi hd hx =>
    exact ⟨_, .wholeEncode (er.trans hr) (ep.trans hp) (eq.trans hq) hl hi hd hx, ⟨_, rfl, rfl⟩,
      agree_of_idle er rfl rfl rfl ei⟩
  | wholeDecode hr hp hq hl hi hd hw hf =>
    exact ⟨_, .wholeDecode (er.trans hr) (ep.trans hp) (eq.trans hq) hl hi hd hw hf, ⟨_, rfl, rfl⟩,
      agree_of_idle er rfl rfl rfl ei⟩
  | beginEncode hr hp hq hl ho hd hx =>
    exact ⟨_, .beginEncode (er.trans hr) (ep.trans hp) (eq.trans hq) hl ho hd hx, sentAlike_refl _ _,
      er, rfl, rfl, ei, fun _ => rfl, nofun⟩
  | beginDecode hr hp hq hl ho hd hx =>
    exact ⟨_, .beginDecode (er.trans hr) (ep.trans hp) (eq.trans hq) hl ho hd hx, sentAlike_refl _ _,
      er, rfl, rfl, ei, nofun, fun _ => ⟨rfl, rfl, rfl, rfl⟩⟩
  | emitMore hr hp hx =>
    have ex := henc hp
    exact ⟨_, .emitMore (er.trans hr) (ep.trans hp) (ex ▸ hx), ⟨_, rfl, by rw [ex]; rfl⟩,
      er, ep, eq, ei, fun _ => by rw [ex], fun h => by cases hp.symm.trans h⟩
  | emitLast hr hp hx =>
    have ex := henc hp
    exact ⟨_, .emitLast (er.trans hr) (ep.trans hp) (ex ▸ hx), ⟨_, rfl, by rw [ex]; rfl⟩, agree_of_idle er rfl rfl eq ei⟩
  | decodeWait hr hp hd hi =>
    obtain ⟨-, -, -, ed⟩ := hdec hp
    exact ⟨_, .decodeWait (er.trans hr) (ep.trans hp) (ed.trans hd) (ei.trans hi), sentAlike_refl _ _,
      er, ep, eq, ei, henc, hdec⟩
  | consumeMore hr hp hd hi hc =>
    obtain ⟨eo, ea, en, ed⟩ := hdec hp
    exact ⟨_, .consumeMore (er.trans hr) (ep.trans hp) (ed.trans hd) (ei.trans hi) hc, sentAlike_refl _ _,
      er, ep, eq, rfl, henc, fun _ => ⟨eo, by rw [ea, en], by rw [en], ed⟩⟩
  | consumeLast hr hp hd hi hc hv =>
    obtain ⟨eo, ea, en, ed⟩ := hdec hp
    exact ⟨_, .consumeLast (er.trans hr) (ep.trans hp) (ed.trans hd) (ei.trans hi) hc (by rw [eo, ea, en, hv]),
      ⟨_, rfl, rfl⟩, agree_of_idle er rfl rfl eq rfl⟩
  | consumeEnd hr hp hd hi hv =>
    obtain ⟨eo, ea, -, ed⟩ := hdec hp
    exact ⟨_, .consumeEnd (er.trans hr) (ep.trans hp) (ed.trans hd) (ei.trans hi) (by rw [eo, ea, hv]), ⟨_, rfl, rfl⟩,
      agree_of_idle er rfl rfl eq rfl⟩

/-- Two blocks that agree send the same along runs of any length, and agree at the end. -/
theorem runSteps_simulated (k : Nat) : ∀ {s₁ s₂ t₁ : State}, Agree s₁ s₂ → runSteps k s₁ = .next t₁ →
    ∃ t₂, runSteps k s₂ = .next t₂ ∧ SentAlike s₁ s₂ t₁ t₂ ∧ Agree t₁ t₂ := by
  induction k with
  | zero =>
    intro s₁ s₂ t₁ ha h
    cases h
    exact ⟨s₂, rfl, sentAlike_refl _ _, ha⟩
  | succ k ih =>
    intro s₁ s₂ t₁ ha h
    cases hs : step s₁ with
    | fault f => cases (runSteps_fault hs k).symm.trans h
    | refused why => cases (runSteps_refused hs k).symm.trans h
    | next u₁ =>
      obtain ⟨u₂, hu, hsent, hagree⟩ := (step_next_iff.mp hs).simulated ha
      obtain ⟨t₂, ht, hsent', hagree'⟩ := ih hagree ((runSteps_succ hs k).symm.trans h)
      exact ⟨t₂, (runSteps_succ hu.step_eq k).trans ht, hsent.trans hsent', hagree'⟩

/-- Settles O36: two idle blocks with the same interface agree, whatever their registers hold. -/
theorem noStateAcrossOperations : Obligations.NoStateAcrossOperations := by
  intro k s₁ s₂ t₁ hp₁ hp₂ hq hi hr hrun
  obtain ⟨t₂, hrun₂, ⟨l, h₁, h₂⟩, ha⟩ := runSteps_simulated k (agree_of_idle hr.symm hp₁ hp₂ hq.symm hi.symm) hrun
  exact ⟨t₂, l, hrun₂, h₁, h₂, ha.items.symm, ha.requests.symm⟩

end Sys2Proof.Machine
end

section
/-! PROOFS. Encodings (30_encoding.md): the selector decoder and the model's byte image of a request, both inverse to their
encoders; what a decode reads of a byte sequence (its value, longer forms, framing); what the assembler's operands stand for. -/

namespace Sys2Proof.Machine

/-! ### The byte image of a request (R66 to R68) -/

theorem leBytes_length (n : Nat) : ∀ x, (leBytes n x).length = n := by
  induction n with
  | zero => intro x; rfl
  | succ n ih => intro x; rw [leBytes, List.length_cons, ih]

/-- `n` bytes hold a number cut to `n` bytes. -/
theorem leValue_leBytes (n : Nat) : ∀ x, leValue (leBytes n x) = x % 256 ^ n := by
  induction n with
  | zero => intro x; rw [pow_zero, Nat.mod_one]; rfl
  | succ n ih => intro x; rw [leBytes, leValue, ih, BitVec.toNat_ofNat, pow_succ' 256 n, Nat.mod_mul]

/-- An operand written out as `n` bytes and read back. -/
theorem ofNat_leValue_leBytes {m n : Nat} (v : BitVec m) (h : 2 ^ m = 256 ^ n) :
    BitVec.ofNat m (leValue (leBytes n v.toNat)) = v := by
  rw [leValue_leBytes, ← h, Nat.mod_eq_of_lt v.isLt, BitVec.ofNat_toNat, BitVec.setWidth_eq]

theorem leValue_cons_div (b : Byte) (bs : List Byte) : leValue (b :: bs) / 256 = leValue bs := by
  have := b.isLt
  rw [leValue]
  omega

theorem ofNat_leValue_cons (b : Byte) (bs : List Byte) : BitVec.ofNat 8 (leValue (b :: bs)) = b := by
  have := b.isLt
  apply BitVec.eq_of_toNat_eq
  rw [BitVec.toNat_ofNat, leValue]
  omega

/-- Every byte sequence is the bytes of its number. -/
theorem leBytes_leValue (bs : List Byte) : leBytes bs.length (leValue bs) = bs := by
  induction bs with
  | nil => rfl
  | cons b bs ih => rw [List.length_cons, leBytes, ofNat_leValue_cons, leValue_cons_div, ih]

/-- An image's operand bytes stand for the operand they were written from: an encode's value has the length its selector
names. -/
theorem imageOperand_operandBytes (i : Instr) : imageOperand i.selector (operandBytes i.operand) = i.operand := by
  rw [imageOperand, Instr.selector, selDir_encodeSelector, selWidth_encodeSelector]
  cases i with
  | encU16 v => exact congrArg Operand.value16 (ofNat_leValue_leBytes (n := 2) v (by norm_num))
  | encS16 v => exact congrArg Operand.value16 (ofNat_leValue_leBytes (n := 2) v (by norm_num))
  | encU32 v => exact congrArg Operand.value32 (ofNat_leValue_leBytes (n := 4) v (by norm_num))
  | encS32 v => exact congrArg Operand.value32 (ofNat_leValue_leBytes (n := 4) v (by norm_num))
  | encU64 v => exact congrArg Operand.value64 (ofNat_leValue_leBytes (n := 8) v (by norm_num))
  | encS64 v => exact congrArg Operand.value64 (ofNat_leValue_leBytes (n := 8) v (by norm_num))
  | decU16 s | decS16 s | decU32 s | decS32 s | decU64 s | decS64 s => rfl

theorem encodeImage_selector (i : Instr) : (encodeImage i).1.setWidth 4 = i.selector := by
  rw [encodeImage, BitVec.setWidth_setWidth_of_le _ (by omega), BitVec.setWidth_eq]

/-- Decoding an instruction's image gives it back. -/
theorem decodeImage_encodeImage (i : Instr) : decodeImage (encodeImage i).1 (encodeImage i).2 = .ok i := by
  rw [decodeImage, encodeImage_selector, encodeImage, imageOperand_operandBytes]
  exact decodeRequest_ok (decodeSelector_selector i) (attachOperand_operand i)

/-- The table word of an image with enough operand bytes carries exactly those bytes. -/
theorem tableOperandBytes_leValue {first : Byte} {rest : List Byte}
    (h : operandBytesNeeded (first.setWidth 4) ≤ rest.length) :
    tableOperandBytes (8 * (rest.length + 1)) (leValue (first :: rest)) = rest := by
  have hsel : BitVec.ofNat 4 (leValue (first :: rest)) = first.setWidth 4 := by
    rw [← ofNat_leValue_cons first rest, BitVec.setWidth_ofNat_of_le (by omega), ofNat_leValue_cons]
  have hlen : (8 * (rest.length + 1) + 7) / 8 - 1 = rest.length := by omega
  rw [tableOperandBytes, hsel, hlen, leValue_cons_div, leBytes_leValue, Nat.sub_eq_zero_of_le h, List.replicate_zero,
    List.append_nil]

/-- Reading an image as a table word is decoding the image. -/
theorem decodeTableWord_leValue {first : Byte} {rest : List Byte} {i : Instr}
    (h : operandBytesNeeded (first.setWidth 4) ≤ rest.length) (hi : decodeImage first rest = .ok i) :
    decodeTableWord (8 * (rest.length + 1)) (leValue (first :: rest)) = some i := by
  rw [decodeTableWord, tableOperandBytes_leValue h, ofNat_leValue_cons, hi]

/-- An image is never shorter than its selector asks for. -/
theorem operandBytesNeeded_le (i : Instr) : operandBytesNeeded i.selector ≤ (operandBytes i.operand).length := by
  rw [operandBytesNeeded, Instr.selector, selDir_encodeSelector, selWidth_encodeSelector]
  cases i with
  | encU16 | encS16 | encU32 | encS32 | encU64 | encS64 =>
    simp [Instr.operation, Instr.operand, operandBytes, leBytes_length, Width.bits]
  | decU16 | decS16 | decU32 | decS32 | decU64 | decS64 => exact Nat.zero_le _

/-- Settles O4: the operand bytes are the operand's number to the base 256, and a table word is the number of the whole
image. -/
theorem imageRoundTrip : Obligations.ImageRoundTrip := fun i =>
  ⟨decodeImage_encodeImage i,
    decodeTableWord_leValue ((encodeImage_selector i).symm ▸ operandBytesNeeded_le i) (decodeImage_encodeImage i)⟩

/-- Settles O3: the decoder run on each image. -/
theorem requestImagesDecode : Obligations.RequestImagesDecode := by
  unfold Obligations.RequestImagesDecode
  decide

/-! ### The selector (R66 to R70) -/

/-- Settles O1: the decoder run on each of the sixteen selectors. -/
theorem selectorMap : Obligations.SelectorMap := by
  unfold Obligations.SelectorMap
  decide

/-- Settles O2: the selector's encoder and decoder are inverse to each other. -/
theorem selectorDecodeTotal : Obligations.SelectorDecodeTotal :=
  ⟨fun _ o => ⟨encodeSelector_of_decode, fun h => h ▸ decodeSelector_encodeSelector o⟩, decodeSelector_none_iff⟩

/-- A request whose selector names no operation is refused at either level, whatever its operand (R69). -/
theorem serveRequest_reserved {r : Request} (h : decodeSelector r.op = none) (s : State) :
    serveRequest r s = .refused (.reservedSelector r.op) := by
  cases hl : r.level with
  | transaction => simp only [serveRequest, hl, decodeRequest, h, refuse]
  | streaming => simp only [serveRequest_streaming hl, accept, h, refuse]

/-- Settles O7: the oldest request is served, and serving it looks at the selector first. -/
theorem reservedSelectorRefused : Obligations.ReservedSelectorRefused := by
  intro s lvl op x rest hr hp hq hres
  have hnone := (decodeSelector_none_iff op).mpr hres
  exact ⟨hnone, (step_idle_cons hr hp hq).trans (serveRequest_reserved hnone _)⟩

/-! ### The value of a decode (R61, R63) -/

/-- Settles O41: the value of the decode loop from an empty accumulator. -/
theorem decodeValue : Obligations.DecodeValue := by
  intro A s
  have hcount : (decodeAcc A s).2 = (varintLength s).getD s.length := by rw [decodeAcc, decodeLoop_count, Nat.zero_add]
  have hvalue := decodeLoop_value (A := A) s 0 0 (by simp)
  rw [hcount, decodeAcc, hvalue]
  simp [payload_eq_setWidth]

/-- A payload of zero adds nothing. -/
theorem accumulate_zero {A : Nat} (acc : BitVec A) (i : Nat) : accumulate acc i 0x00#8 = acc := by
  simp [accumulate, payload]

theorem continues_or_marker (b : Byte) : continues (b ||| 0x80#8) = true := by
  simp [continues]

/-- The continuation bit is no part of the payload. -/
theorem accumulate_or_marker {A : Nat} (acc : BitVec A) (i : Nat) (b : Byte) :
    accumulate acc i (b ||| 0x80#8) = accumulate acc i b := by
  have hp : payload (b ||| 0x80#8) = payload b := by
    revert b
    decide
  rw [accumulate, hp, accumulate]

/-- Turning a terminator into a continuation byte and closing with a zero byte keeps the value. -/
theorem decodeLoop_redundant_zero {A : Nat} {b : Byte} (hb : continues b = false) (acc : BitVec A) (i : Nat) :
    (decodeLoop [b ||| 0x80#8, 0x00#8] acc i).1 = (decodeLoop [b] acc i).1 := by
  rw [decodeLoop_continue (continues_or_marker b), decodeLoop_stop (by decide), decodeLoop_stop hb, accumulate_zero,
    accumulate_or_marker]

/-- The last byte of an encoding is zero only for the value zero. -/
theorem encodeAcc_getLast_ne_zero {A : Nat} (x : BitVec A) (hx : x.toNat ≠ 0) :
    (encodeAcc x).getLast? ≠ some 0x00#8 := by
  induction x using encode_induction with
  | last x h =>
    rw [encodeAcc_of_le h, List.getLast?_singleton, ne_eq, Option.some.injEq]
    intro hz
    exact hx (finalByte_toNat h ▸ congrArg BitVec.toNat hz)
  | more x h ih =>
    obtain ⟨c, cs, hc⟩ := List.exists_cons_of_ne_nil (encodeAcc_ne_nil (x >>> 7))
    rw [encodeAcc_of_gt h, hc, List.getLast?_cons_cons, ← hc]
    exact ih (by rw [shift7_toNat]; omega)

/-- No encoding of more than one byte ends in a zero byte (R63). -/
theorem encodeAcc_ne_append_zero {A : Nat} (x : BitVec A) (front : List Byte) (c : Byte) :
    encodeAcc x ≠ front ++ [c, 0x00#8] := by
  intro h
  have hlen : (encodeAcc x).length = front.length + 2 := by rw [h, List.length_append]; rfl
  have hx : ¬ x.toNat ≤ 127 := fun hle => by
    rw [encodeAcc_of_le hle, List.length_singleton] at hlen
    omega
  exact encodeAcc_getLast_ne_zero x (by omega) (by rw [h]; simp)

/-- Settles O45: both forms agree on the bytes in front; the encoder's longer outputs do not end in zero. -/
theorem nonMinimalAccepted : Obligations.NonMinimalAccepted := by
  refine fun A => ⟨fun front b hfront hb => ?_, fun x front b => encodeAcc_ne_append_zero x front _⟩
  rw [decodeAcc, decodeAcc, decodeLoop_append front hfront, decodeLoop_append front hfront]
  exact decodeLoop_redundant_zero hb _ _

/-! ### Framing (R62, R185) -/

/-- Framing finds nothing exactly where every byte continues. -/
theorem frame_eq_none_iff (s : List Byte) : frame s = none ↔ shortRead s = true := by
  rw [frame, Option.map_eq_none_iff, shortRead]
  induction s with
  | nil => exact ⟨fun _ => rfl, fun _ => rfl⟩
  | cons b s ih => cases hb : continues b <;> simp [varintLength, hb, ih]

/-- A varint's length points behind its terminator, the first byte that does not continue. -/
theorem varintLength_eq_some {s : List Byte} : ∀ {n : Nat}, varintLength s = some n →
    ∃ front b rest, s = front ++ b :: rest ∧ (∀ c ∈ front, continues c = true) ∧ continues b = false ∧
      n = front.length + 1 := by
  induction s with
  | nil => intro n h; cases h
  | cons c s ih =>
    intro n h
    rw [varintLength] at h
    cases hc : continues c with
    | false =>
      simp only [hc, Bool.false_eq_true, if_false, Option.some.injEq] at h
      exact ⟨[], c, s, rfl, by simp, hc, h.symm⟩
    | true =>
      simp only [hc, if_true, Option.map_eq_some_iff] at h
      obtain ⟨m, hm, rfl⟩ := h
      obtain ⟨front, b, rest, rfl, hfront, hb, rfl⟩ := ih hm
      exact ⟨c :: front, b, rest, rfl, by simpa [hc] using hfront, hb, rfl⟩

/-- The window that framing finds is a run of continuation bytes and a terminator. -/
theorem frame_eq_some {s w rest : List Byte} (h : frame s = some (w, rest)) :
    ∃ front b, w = front ++ [b] ∧ s = front ++ b :: rest ∧ (∀ c ∈ front, continues c = true) ∧ continues b = false := by
  rw [frame, Option.map_eq_some_iff] at h
  obtain ⟨n, hn, hw⟩ := h
  obtain ⟨front, b, rest', rfl, hfront, hb, rfl⟩ := varintLength_eq_some hn
  obtain ⟨rfl, rfl⟩ := Prod.mk.inj hw
  exact ⟨front, b, by simp [List.take_append], by simp [List.drop_append], hfront, hb⟩

/-- A decode consumes the continuation bytes and the first terminator, and nothing behind it. -/
theorem decodeAcc_terminated {A : Nat} {front : List Byte} {b : Byte} (hfront : ∀ c ∈ front, continues c = true)
    (hb : continues b = false) (rest : List Byte) :
    decodeAcc A (front ++ b :: rest) =
      (accumulate (decodeAcc A front).1 front.length b, front.length + 1) := by
  rw [decodeAcc, decodeLoop_append front hfront, decodeLoop_stop hb, Nat.zero_add, decodeAcc]

/-- Settles O47: the window found and the buffer it stands in are the same run up to the same terminator. -/
theorem framingFindsWindow : Obligations.FramingFindsWindow := by
  refine fun A s => ⟨fun w rest h => ?_, frame_eq_none_iff s⟩
  obtain ⟨front, b, rfl, rfl, hfront, hb⟩ := frame_eq_some h
  refine ⟨by simp, ?_, ?_, by simp [shortRead, hb]⟩
  · rw [decodeAcc_terminated hfront hb, decodeAcc_terminated hfront hb]
  · rw [decodeAcc_terminated hfront hb, List.length_append, List.length_singleton]

/-! ### The assembler's operands (R71) -/

theorem width_bits_lt_accWidth (w : Width) : w.bits < Config.accWidth :=
  (width_bits_le w).trans_lt (by decide)

/-- An integer of `U_w` is what `REM` starts from (R12, R181). -/
theorem initialRem_ofInt_unsigned {w : Width} {x : Int} (h : inDomain .unsigned w x = true) :
    ((initialRem .unsigned (BitVec.ofInt w.bits x)).toNat : Int) = x := by
  obtain ⟨hlo, hhi⟩ : 0 ≤ x ∧ x < 2 ^ w.bits := by simpa [inDomain] using h
  rw [initialRem, widenUnsigned, BitVec.toNat_setWidth_of_le (width_bits_lt_accWidth w).le, BitVec.toNat_ofInt,
    Int.emod_eq_of_lt hlo (by exact_mod_cast hhi), Int.toNat_of_nonneg hlo]

/-- An integer of `S_w` is what its pattern stands for, and `REM` starts from its zigzag image (R12, R100, R181). -/
theorem initialRem_ofInt_signed {w : Width} {x : Int} (h : inDomain .signed w x = true) :
    ((initialRem .signed (BitVec.ofInt w.bits x)).toNat : Int) = if 0 ≤ x then 2 * x else -2 * x - 1 := by
  obtain ⟨hlo, hhi⟩ : -2 ^ (w.bits - 1) ≤ x ∧ x < 2 ^ (w.bits - 1) := by simpa [inDomain] using h
  have hx : (BitVec.ofInt w.bits x).toInt = x := BitVec.toInt_ofInt_eq_self (by cases w <;> decide) hlo hhi
  rw [initialRem, widenSigned, zigzagFwd_signExtend _ (width_bits_lt_accWidth w), hx]

theorem operandRem_valueOperand (o : Operation) (x : Int) :
    operandRem o (valueOperand o.width x) = some (initialRem o.sign (BitVec.ofInt o.width.bits x)) := by
  obtain ⟨d, w, g⟩ := o
  cases w <;> rfl

/-- Byte literals in range are the numbers of their bytes. -/
theorem map_toNat_ofNat {bs : List Nat} (h : ∀ n ∈ bs, n ≤ 0xFF) :
    (bs.map fun n => BitVec.ofNat 8 n).map BitVec.toNat = bs := by
  rw [List.map_map]
  refine (List.map_congr_left fun n hn => ?_).trans (List.map_id bs)
  have := h n hn
  exact Nat.mod_eq_of_lt (by omega)

theorem assembleEncode_out_of_domain {o : Operation} {x : Int} (h : inDomain o.sign o.width x = false) :
    assembleEncode o x = .error .immediateRange := by
  rw [assembleEncode, h, if_neg Bool.false_ne_true]

theorem assembleEncode_in_domain {o : Operation} {x : Int} (h : inDomain o.sign o.width x = true) :
    assembleEncode o x = .ok ⟨.transaction, encodeSelector o, valueOperand o.width x⟩ := by
  rw [assembleEncode, if_pos h]

theorem assembleDecode_out_of_range {o : Operation} {bs : List Nat} (h : ∃ n ∈ bs, 0xFF < n) :
    assembleDecode o bs = .error .byteRange := by
  rw [assembleDecode, if_neg]
  simpa [byteLiteral] using h

theorem assembleDecode_in_range {o : Operation} {bs : List Nat} (h : ∀ n ∈ bs, n ≤ 0xFF) :
    assembleDecode o bs = .ok ⟨.transaction, encodeSelector o, .window (bs.map fun n => BitVec.ofNat 8 n)⟩ := by
  rw [assembleDecode, if_pos]
  simpa [byteLiteral] using h

/-- Settles O60: what an assembled request's operand stands for, and the two refusals. -/
theorem assemblerRanges : Obligations.AssemblerRanges := by
  refine ⟨fun g w x => ⟨fun h => assembleEncode_out_of_domain h, fun h => ?_⟩,
    fun g w bs => ⟨assembleDecode_out_of_range, fun h => ?_⟩⟩
  · refine ⟨_, _, assembleEncode_in_domain h, decodeSelector_encodeSelector _, operandRem_valueOperand _ x, ?_⟩
    cases g with
    | unsigned => exact initialRem_ofInt_unsigned h
    | signed => exact initialRem_ofInt_signed h
  · exact ⟨_, map_toNat_ofNat h, assembleDecode_in_range h⟩

end Sys2Proof.Machine
end

section
/-! PROOFS. The unsigned codec (40_unsigned_codec.md): the shape and the length of an encoding (R81 to R84), what a decode
consumes (R87 to R90), the steps of the encoder and of the decoder (R91, R92), and the agreement of the two levels of the
interface (R93); with them the signed encode as an encode of the zigzag value (R126). -/

namespace Sys2Proof.Machine

/-! ### The bytes of an encoding (R81, R82) -/

theorem shiftRight_seven_mul_succ {A : Nat} (x : BitVec A) (n : Nat) : x >>> (7 * (n + 1)) = x >>> 7 >>> (7 * n) := by
  rw [Nat.mul_succ, Nat.add_comm, BitVec.shiftRight_add]

/-- One more byte comes before the last than in the encoding of what the first byte's shift leaves. -/
theorem encodeAcc_pred_length {A : Nat} {x : BitVec A} (h : 127 < x.toNat) :
    (encodeAcc x).length - 1 = (encodeAcc (x >>> 7)).length - 1 + 1 := by
  rw [encodeAcc_of_gt h, List.length_cons, Nat.add_sub_cancel, Nat.sub_add_cancel (encodeAcc_length_pos _)]

/-- A byte before the last carries the low seven bits of what the shifts before it have left. -/
theorem encodeAcc_getElem?_of_lt {A : Nat} (x : BitVec A) : ∀ j, j + 1 < (encodeAcc x).length →
    (encodeAcc x)[j]? = some (continuationByte (x >>> (7 * j))) := by
  induction x using encode_induction with
  | last x h => intro j hj; simp [encodeAcc_of_le h] at hj
  | more x h ih =>
    intro j hj
    rw [encodeAcc_of_gt h] at hj ⊢
    cases j with
    | zero => simp
    | succ j =>
      rw [List.getElem?_cons_succ, ih j (by simpa using hj), shiftRight_seven_mul_succ]

/-- The last byte is what the shifts before it have left. -/
theorem encodeAcc_getElem?_last {A : Nat} (x : BitVec A) :
    (encodeAcc x)[(encodeAcc x).length - 1]? = some (finalByte (x >>> (7 * ((encodeAcc x).length - 1)))) := by
  induction x using encode_induction with
  | last x h => simp [encodeAcc_of_le h]
  | more x h ih => rw [encodeAcc_pred_length h, shiftRight_seven_mul_succ, ← ih, encodeAcc_of_gt h, List.getElem?_cons_succ]

theorem encodeAcc_lt_two_pow {A : Nat} (x : BitVec A) : x.toNat < 2 ^ (7 * (encodeAcc x).length) := by
  rw [Nat.pow_mul]
  exact (encodeAcc_length_le_iff x _ (encodeAcc_length_pos x)).mp le_rfl

/-- All but the last byte of an encoding leave at most seven bits. -/
theorem shift_last_le {A : Nat} (x : BitVec A) : (x >>> (7 * ((encodeAcc x).length - 1))).toNat ≤ 127 := by
  have hpos := encodeAcc_length_pos x
  have hlen : 7 * (encodeAcc x).length = 7 + 7 * ((encodeAcc x).length - 1) := by omega
  have hlt := encodeAcc_lt_two_pow x
  rw [hlen, Nat.pow_add] at hlt
  rw [BitVec.toNat_ushiftRight, Nat.shiftRight_eq_div_pow]
  exact Nat.le_of_lt_succ (Nat.div_lt_of_lt_mul (by rwa [Nat.mul_comm]))

theorem continuationByte_eq {A : Nat} (x : BitVec A) : continuationByte x = (x.setWidth 7).setWidth 8 ||| 0x80#8 := by
  have hbits : x.extractLsb' 0 7 = x.setWidth 7 := by
    ext i hi
    simp
  rw [continuationByte, hbits]

theorem continuationByte_ushiftRight {A : Nat} (x : BitVec A) (k : Nat) :
    continuationByte (x >>> k) = 0x80#8 ||| (x.extractLsb' k 7).setWidth 8 := by
  have hbits : (x >>> k).extractLsb' 0 7 = x.extractLsb' k 7 := by
    ext i hi
    simp
  rw [continuationByte, hbits, BitVec.or_comm]

theorem finalByte_ushiftRight {A : Nat} (x : BitVec A) (k : Nat) (h : (x >>> k).toNat ≤ 127) :
    finalByte (x >>> k) = (x.extractLsb' k 7).setWidth 8 := by
  apply BitVec.eq_of_toNat_eq
  rw [finalByte_toNat h]
  rw [BitVec.toNat_ushiftRight] at h ⊢
  rw [BitVec.toNat_setWidth, BitVec.extractLsb'_toNat, Nat.mod_eq_of_lt (by omega : x.toNat >>> k < 2 ^ 7),
    Nat.mod_eq_of_lt (by omega)]

theorem encodeAcc_zero (A : Nat) : encodeAcc (0#A) = [0x00#8] := by
  rw [encodeAcc_of_le (by simp)]
  simp [finalByte]

/-- Only a last byte can be 0, and what the shift before it leaves of a value is not 0. -/
theorem eq_zero_of_zero_mem_encodeAcc {A : Nat} (x : BitVec A) : 0x00#8 ∈ encodeAcc x → x = 0#A := by
  induction x using encode_induction with
  | last x h =>
    intro hmem
    rw [encodeAcc_of_le h, List.mem_singleton] at hmem
    apply BitVec.eq_of_toNat_eq
    rw [← finalByte_toNat h, ← hmem]
    simp
  | more x h ih =>
    intro hmem
    rw [encodeAcc_of_gt h, List.mem_cons] at hmem
    rcases hmem with hz | hmem
    · cases (congrArg continues hz).trans (continues_continuationByte x)
    · have hsh : x.toNat / 128 = 0 := by rw [← shift7_toNat, ih hmem, BitVec.toNat_zero]
      omega

/-- Settles O38: each byte by the shifts before it; the byte 0 by what a shift leaves. -/
theorem encodeShape : Obligations.EncodeShape := by
  intro A x
  have hlast := encodeAcc_getElem?_last x
  rw [finalByte_ushiftRight x _ (shift_last_le x)] at hlast
  refine ⟨encodeAcc_length_pos x, encodeAcc_of_le, encodeAcc_zero A, fun j hj => ?_, hlast, encodeAcc_lt_two_pow x,
    fun hlen => encodeAcc_getLast_ne_zero x fun hx => ?_, fun hmem => ?_⟩
  · rw [encodeAcc_getElem?_of_lt x j hj, continuationByte_ushiftRight]
  · simp [encodeAcc_of_le (show x.toNat ≤ 127 by omega)] at hlen
  · obtain rfl := eq_zero_of_zero_mem_encodeAcc x hmem
    exact ⟨rfl, encodeAcc_zero A⟩

/-! ### The length of an encoding (R83, R84) -/

/-- The values whose encodings have a given length. -/
theorem encodeAcc_length_eq_iff {A k : Nat} (x : BitVec A) (hk : 1 ≤ k) :
    (encodeAcc x).length = k ↔ (k = 1 ∨ 128 ^ (k - 1) ≤ x.toNat) ∧ x.toNat < 128 ^ k := by
  rw [← encodeAcc_length_le_iff x k hk]
  rcases hk.eq_or_lt with rfl | hk'
  · have := encodeAcc_length_pos x
    omega
  · rw [← not_lt, ← encodeAcc_length_le_iff x (k - 1) (by omega)]
    omega

theorem encodeAcc_length_log2 {A : Nat} (x : BitVec A) (h : 128 ≤ x.toNat) :
    (encodeAcc x).length = (x.toNat.log2 + 1 + 6) / 7 := by
  have hlo : 2 ^ x.toNat.log2 ≤ x.toNat := Nat.log2_self_le (by omega)
  have hhi : x.toNat < 2 ^ (x.toNat.log2 + 1) := Nat.lt_log2_self
  have h128 : (128 : Nat) = 2 ^ 7 := by decide
  rw [encodeAcc_length_eq_iff x (by omega), h128, ← Nat.pow_mul, ← Nat.pow_mul]
  exact ⟨.inr ((Nat.pow_le_pow_right (by decide) (by omega)).trans hlo),
    hhi.trans_le (Nat.pow_le_pow_right (by decide) (by omega))⟩

theorem encodeAcc_length_mono {A B : Nat} {x : BitVec A} {y : BitVec B} (h : x.toNat ≤ y.toNat) :
    (encodeAcc x).length ≤ (encodeAcc y).length :=
  have hy := (encodeAcc_length_le_iff y _ (encodeAcc_length_pos y)).mp le_rfl
  (encodeAcc_length_le_iff x _ (encodeAcc_length_pos y)).mpr (h.trans_lt hy)

theorem toNat_sub_one {A : Nat} {x : BitVec A} (h : 1 ≤ x.toNat) : (x - 1).toNat = x.toNat - 1 := by
  have hA : 1 < 2 ^ A := h.trans_lt x.isLt
  have h1 : (1 : BitVec A).toNat = 1 := Nat.mod_eq_of_lt hA
  rw [BitVec.toNat_sub_of_le (BitVec.le_def.mpr (h1.symm ▸ h)), h1]

/-- The length grows at each power of 128. -/
theorem encodeAcc_length_step {A k : Nat} {x : BitVec A} (hk : 1 ≤ k) (hx : x.toNat = 128 ^ k) :
    (encodeAcc x).length = k + 1 ∧ (encodeAcc (x - 1)).length = k := by
  have hpos : 1 ≤ x.toNat := hx ▸ Nat.one_le_pow' _ _
  have hlt : 128 ^ k < 128 ^ (k + 1) := Nat.pow_lt_pow_succ (by decide)
  constructor
  · rw [encodeAcc_length_eq_iff x (by omega), Nat.add_sub_cancel, hx]
    exact ⟨.inr le_rfl, hlt⟩
  · have hprev : 128 ^ (k - 1) < 128 ^ k := Nat.pow_lt_pow_right (by decide) (by omega)
    rw [encodeAcc_length_eq_iff _ hk, toNat_sub_one hpos, hx]
    omega

/-- No byte sequence with the same payload value is shorter than the encoding. -/
theorem encodeAcc_length_le_of_value {A : Nat} {x : BitVec A} {bs : List Byte} (hne : bs ≠ [])
    (h : Nat.ofDigits 128 (bs.map fun c => (c.setWidth 7).toNat) = x.toNat) : (encodeAcc x).length ≤ bs.length := by
  rw [encodeAcc_length_le_iff x _ (List.length_pos_iff.mpr hne), ← h, ← List.length_map (fun c => (c.setWidth 7).toNat)]
  refine Nat.ofDigits_lt_base_pow_length (by decide) fun d hd => ?_
  obtain ⟨c, -, rfl⟩ := List.mem_map.mp hd
  exact (c.setWidth 7).isLt

/-- Settles O39: by the interval of the values of each length. -/
theorem encodeLength : Obligations.EncodeLength := fun _ x =>
  ⟨fun h => (encodeAcc_length_eq_iff x le_rfl).mpr ⟨.inl rfl, h⟩, encodeAcc_length_le_iff x, encodeAcc_length_log2 x,
    fun _ => encodeAcc_length_mono, fun _ => encodeAcc_length_step,
    fun _ _ _ _ => encodeAcc_length_le_of_value (by simp)⟩

/-- Settles O40: each width and each boundary by the interval of the values of that length. -/
theorem encodeMaximumLengths : Obligations.EncodeMaximumLengths := by
  have hle : ∀ (x : Acc) {n m : Nat}, 1 ≤ n → m ≤ 128 ^ n → x.toNat < m → (encodeAcc x).length ≤ n :=
    fun x n m hn hm hx => (encodeAcc_length_le_iff x n hn).mpr (hx.trans_le hm)
  have heq : ∀ (x : Acc) {n l m : Nat}, 1 ≤ n → 128 ^ (n - 1) ≤ l → m ≤ 128 ^ n → l ≤ x.toNat → x.toNat < m →
      (encodeAcc x).length = n :=
    fun x n l m hn hl hm hlo hhi => (encodeAcc_length_eq_iff x hn).mpr ⟨.inr (hl.trans hlo), hhi.trans_le hm⟩
  refine ⟨fun x => hle x (by decide) (by decide), fun x => hle x (by decide) (by decide),
    fun x => hle x (by decide) (by decide), fun x => heq x (by decide) (by decide) (by decide),
    fun x => heq x (by decide) (by decide) (by decide), fun x => heq x (by decide) (by decide) (by decide),
    fun x k hk _ => ?_⟩
  rw [Nat.pow_mul, Nat.pow_mul]
  exact encodeAcc_length_eq_iff x hk

/-! ### What a decode consumes (R87 to R90) -/

/-- A byte sequence is a short read or holds a first terminator. -/
theorem shortRead_or_terminated (s : List Byte) : (∀ b ∈ s, continues b = true) ∨
    ∃ front b rest, s = front ++ b :: rest ∧ (∀ c ∈ front, continues c = true) ∧ continues b = false := by
  cases h : varintLength s with
  | none =>
    left
    have hf : frame s = none := by rw [frame, h, Option.map_none]
    simpa [shortRead] using (frame_eq_none_iff s).mp hf
  | some n =>
    obtain ⟨front, b, rest, hs, hfront, hb, -⟩ := varintLength_eq_some h
    exact .inr ⟨front, b, rest, hs, hfront, hb⟩

/-- Settles O42: a decode looks no further than the first terminator. -/
theorem trailingBytesIgnored : Obligations.TrailingBytesIgnored := by
  rintro A s t ⟨b, hb, hstop⟩
  obtain hall | ⟨front, c, rest, rfl, hfront, hc⟩ := shortRead_or_terminated s
  · cases (hall b hb).symm.trans hstop
  · rw [List.append_assoc, List.cons_append, decodeAcc_terminated hfront hc, decodeAcc_terminated hfront hc]

theorem decodeAcc_nil (A : Nat) : decodeAcc A [] = (0, 0) := rfl

/-- A decode of a short read ends behind its last byte. -/
theorem decodeAcc_shortRead_count {A : Nat} {s : List Byte} (h : ∀ b ∈ s, continues b = true) :
    (decodeAcc A s).2 = s.length := by
  have := decodeLoop_append s h [] (0 : BitVec A) 0
  rw [List.append_nil, Nat.zero_add] at this
  exact congrArg Prod.snd this

/-- One accumulation, as R85 and R88 write it. -/
theorem accumulate_eq {A : Nat} (acc : BitVec A) (i : Nat) (b : Byte) :
    accumulate acc i b = acc ||| (b.setWidth 7).setWidth A <<< (7 * i) := by
  rw [accumulate, payload_eq_setWidth]

/-- A short read is accumulated byte by byte, each at its index. -/
theorem decodeAcc_shortRead_value {A : Nat} (s : List Byte) (h : ∀ b ∈ s, continues b = true) :
    (decodeAcc A s).1 = (List.range s.length).foldl (fun z i => accumulate z i (s.getD i 0)) 0 := by
  induction s using List.reverseRecOn with
  | nil => rfl
  | append_singleton front b ih =>
    have hfront : ∀ c ∈ front, continues c = true := fun c hc => h c (by simp [hc])
    have hsame : (List.range front.length).foldl (fun z i => accumulate z i ((front ++ [b]).getD i 0)) (0 : BitVec A) =
        (List.range front.length).foldl (fun z i => accumulate z i (front.getD i 0)) 0 :=
      List.foldl_ext _ _ _ fun z i hi => by rw [List.getD_append _ _ _ _ (List.mem_range.mp hi)]
    have hlast : (front ++ [b]).getD front.length 0 = b := by simp
    rw [List.length_append, List.length_singleton, List.range_succ, List.foldl_append, hsame, List.foldl_cons, List.foldl_nil,
      hlast, ← ih hfront, decodeAcc, decodeLoop_append front hfront, decodeLoop_continue (h b (by simp)), Nat.zero_add]
    rfl

/-- Settles O43: a short read is accumulated byte by byte. -/
theorem shortReadAccumulates : Obligations.ShortReadAccumulates := by
  refine fun A => ⟨fun s h => ?_, decodeAcc_nil A, ?_⟩
  · refine Prod.ext ?_ (decodeAcc_shortRead_count h)
    simpa only [accumulate_eq] using decodeAcc_shortRead_value s h
  · rw [decodeAcc, decodeLoop_continue (by decide), decodeLoop, accumulate_eq]
    simp

/-- Settles O44: both ways a decode ends. -/
theorem consumedCount : Obligations.ConsumedCount := by
  intro A s
  have hstop : ∀ (front : List Byte) (b : Byte) (rest : List Byte), s = front ++ b :: rest →
      (∀ c ∈ front, c.getLsbD 7 = true) → b.getLsbD 7 = false → (decodeAcc A s).2 = front.length + 1 := by
    rintro front b rest rfl hfront hb
    rw [decodeAcc_terminated hfront hb]
  refine ⟨hstop, decodeAcc_shortRead_count, ?_⟩
  obtain hall | ⟨front, b, rest, hs, hfront, hb⟩ := shortRead_or_terminated s
  · rw [decodeAcc_shortRead_count hall]
    exact ⟨le_rfl, List.length_eq_zero_iff.mp⟩
  · rw [hstop front b rest hs hfront hb, hs, List.length_append, List.length_cons]
    omega

/-- An encoding is a run of continuation bytes and a terminator. -/
theorem encodeAcc_terminated {A : Nat} (x : BitVec A) :
    ∃ front b, encodeAcc x = front ++ [b] ∧ (∀ c ∈ front, continues c = true) ∧ continues b = false := by
  induction x using encode_induction with
  | last x h => exact ⟨[], finalByte x, encodeAcc_of_le h, by simp, continues_finalByte h⟩
  | more x h ih =>
    obtain ⟨front, b, heq, hfront, hb⟩ := ih
    exact ⟨continuationByte x :: front, b, by rw [encodeAcc_of_gt h, heq, List.cons_append],
      by simpa [continues_continuationByte] using hfront, hb⟩

/-- The payloads of an encoding are the base-128 digits of its value. -/
theorem ofDigits_encodeAcc {A : Nat} (x : BitVec A) :
    Nat.ofDigits 128 ((encodeAcc x).map fun b => (payload b).toNat) = x.toNat := by
  induction x using encode_induction with
  | last x h => simp [encodeAcc_of_le h, payload_finalByte h]
  | more x h ih =>
    rw [encodeAcc_of_gt h, List.map_cons, Nat.ofDigits_cons, ih, payload_continuationByte, shift7_toNat]
    exact Nat.mod_add_div x.toNat 128

/-- Settles O46: the encoding's terminator ends the decode, whose value has the encoding's payloads as digits. -/
theorem codecRoundTrip : Obligations.CodecRoundTrip := by
  intro A x t
  obtain ⟨front, b, heq, hfront, hb⟩ := encodeAcc_terminated x
  have hcount : (decodeAcc A (encodeAcc x ++ t)).2 = (encodeAcc x).length := by
    rw [heq, List.append_assoc, List.singleton_append, decodeAcc_terminated hfront hb, List.length_append,
      List.length_singleton]
  refine Prod.ext (BitVec.eq_of_toNat_eq ?_) hcount
  have hdigits := ofDigits_encodeAcc x
  simp only [payload_eq_setWidth] at hdigits
  rw [decodeValue A, hcount, List.take_left, hdigits, Nat.mod_eq_of_lt x.isLt]

/-! ### The encoder's steps (R91, R93) -/

/-- The steps before the last each emit one byte and shift `REM`. -/
theorem runSteps_encode_before_last (x : Acc) : ∀ (s : State), s.phase = .enc → s.resetLine = false → s.rem = x →
    ∀ k < (encodeAcc x).length, runSteps k s = .next { s with
      rem := x >>> (7 * k), out := s.out ++ (emissions (encodeAcc x)).take k } := by
  induction x using encode_induction with
  | last x h =>
    rintro s hp hr rfl k hk
    obtain rfl : k = 0 := by simpa [encodeAcc_of_le h] using hk
    simp [runSteps_zero]
  | more x h ih =>
    rintro s hp hr rfl k hk
    rw [encodeAcc_of_gt h] at hk ⊢
    cases k with
    | zero => simp [runSteps_zero]
    | succ k =>
      rw [runSteps_succ (Transition.emitMore hr hp h).step_eq, ih _ (by exact hp) (by exact hr) (by rfl) k (by simpa using hk),
        emissions_cons _ (encodeAcc_ne_nil _), List.take_succ_cons, shiftRight_seven_mul_succ]
      simp

/-- The last emission of an encoding, behind the others. -/
theorem emissions_encodeAcc_concat {A : Nat} (x : BitVec A) :
    (emissions (encodeAcc x)).take ((encodeAcc x).length - 1) ++
      [.emit (finalByte (x >>> (7 * ((encodeAcc x).length - 1)))) true] = emissions (encodeAcc x) := by
  induction x using encode_induction with
  | last x h => simp [encodeAcc_of_le h, emissions]
  | more x h ih =>
    rw [encodeAcc_pred_length h, shiftRight_seven_mul_succ, encodeAcc_of_gt h, emissions_cons _ (encodeAcc_ne_nil _),
      List.take_succ_cons, List.cons_append, ih]

/-- The steps of a whole encoding. -/
theorem runSteps_encode {s : State} (hp : s.phase = .enc) (hr : s.resetLine = false) :
    runSteps (encodeAcc s.rem).length s = .next { s with
      phase := .idle
      rem := s.rem >>> (7 * ((encodeAcc s.rem).length - 1))
      out := s.out ++ emissions (encodeAcc s.rem) } := by
  have hpos := encodeAcc_length_pos s.rem
  have hbefore := runSteps_encode_before_last s.rem s hp hr rfl ((encodeAcc s.rem).length - 1) (by omega)
  have hlast := runSteps_add _ 1 hbefore
  rw [Nat.sub_add_cancel hpos, runSteps_succ (Transition.emitLast (by exact hr) (by exact hp) (shift_last_le s.rem)).step_eq,
    runSteps_zero] at hlast
  simpa [emissions_encodeAcc_concat] using hlast

/-- Settles O25: one step by its transition, the others along the loop of `EncodeAcc`. -/
theorem encoderSteps : Obligations.EncoderSteps := by
  intro s hp hr
  refine ⟨fun hx => ?_, fun hx => (Transition.emitLast hr hp hx).step_eq, fun k hk => ?_, runSteps_encode hp hr⟩
  · rw [← continuationByte_eq]
    exact (Transition.emitMore hr hp hx).step_eq
  · exact ⟨_, runSteps_encode_before_last s.rem s hp hr rfl k hk, hp, rfl⟩

/-- An encode's operand is what `REM` can be loaded with. -/
theorem exists_operandRem {i : Instr} (hd : i.operation.dir = .encode) :
    ∃ x, operandRem i.operation i.operand = some x := by
  obtain ⟨-, x, hx, -⟩ | ⟨hd', -⟩ := exec_idle i (s := State.reset) rfl
  · exact ⟨x, hx⟩
  · cases hd.symm.trans hd'

/-- A whole encode leaves what acceptance and the encoder's steps leave. -/
theorem runSteps_acceptEncode {s : State} (hr : s.resetLine = false) (op : Sel) (x : Acc) :
    runSteps (encodeAcc x).length (acceptEncode op x s) = .next (runEncode op x s) := by
  rw [runEncode, encodeRest_eq _ x (encodeFuel_enough x)]
  exact runSteps_encode (s := acceptEncode op x s) rfl hr

/-- Settles O28: acceptance, then the encoder's steps. -/
theorem streamingEncodeAgrees : Obligations.StreamingEncodeAgrees := by
  intro i s rest hd hr hp hq
  obtain ⟨x, hx⟩ := exists_operandRem hd
  have haccept := (Transition.beginEncode hr hp hq rfl (decodeSelector_selector i) hd hx).step_eq
  exact ⟨_, _, exec_encode (by exact hp) hd hx, (runSteps_succ haccept _).trans (runSteps_acceptEncode (by exact hr) _ x)⟩

/-! ### The decoder's steps (R92, R93) -/

/-- Settles O26: each clause is a transition. -/
theorem decoderSteps : Obligations.DecoderSteps := by
  intro s hp hd hr ho
  simp only [← accumulate_eq]
  refine ⟨fun b rest hi hc => (Transition.consumeMore hr hp hd hi hc).step_eq, fun b rest hi hc => ?_, fun rest hi => ?_,
    fun hi => (Transition.decodeWait hr hp hd hi).step_eq⟩
  · obtain ⟨v, hv⟩ := decodeResult_some ho (accumulate s.acc s.idx b)
    exact ⟨v, hv, (Transition.consumeLast hr hp hd hi hc hv).step_eq⟩
  · obtain ⟨v, hv⟩ := decodeResult_some ho s.acc
    exact ⟨v, hv, (Transition.consumeEnd hr hp hd hi hv).step_eq⟩

/-- Continuation bytes are consumed one per step, as the decode loop consumes them. -/
theorem runSteps_decode_front (front : List Byte) : ∀ {s : State} {its : List Item}, (∀ c ∈ front, continues c = true) →
    s.phase = .dec → s.dstate = .reading → s.resetLine = false → s.items = front.map .inByte ++ its →
    runSteps front.length s = .next { s with
      items := its, acc := (decodeLoop front s.acc s.idx).1, idx := s.idx + front.length } := by
  induction front with
  | nil =>
    rintro s its - - - - rfl
    rfl
  | cons b front ih =>
    intro s its hfront hp hd hr hi
    have hb := hfront b (by simp)
    rw [List.length_cons, runSteps_succ (Transition.consumeMore hr hp hd hi hb).step_eq,
      ih (fun c hc => hfront c (by simp [hc])) (by exact hp) (by exact hd) (by exact hr) (by rfl),
      decodeLoop_continue hb, Nat.add_right_comm, Nat.add_assoc]

/-- A terminated window is consumed up to its terminator. -/
theorem runSteps_acceptDecode_terminated {s : State} {op : Sel} {f : Acc → Value} {front : List Byte} {b : Byte}
    {its : List Item} (hr : s.resetLine = false) (hf : ∀ z, decodeResult op z = some (f z))
    (hfront : ∀ c ∈ front, continues c = true) (hb : continues b = false)
    (hi : s.items = front.map .inByte ++ .inByte b :: its) (rest : List Byte) :
    runSteps (front.length + 1) (acceptDecode op s) = .next { runDecode op (front ++ b :: rest) f s with items := its } := by
  have hrun := runSteps_decode_front front hfront (s := acceptDecode op s) rfl rfl hr hi
  rw [runSteps_add _ _ hrun, runSteps_succ (Transition.consumeLast (by exact hr) rfl rfl rfl hb (hf _)).step_eq, runSteps_zero,
    runDecode, decodeAcc_terminated hfront hb]
  simp [decodeAcc, respond, acceptDecode]

/-- A short read is consumed whole, and `in_eow` after it. -/
theorem runSteps_acceptDecode_shortRead {s : State} {op : Sel} {f : Acc → Value} {w : List Byte} {its : List Item}
    (hr : s.resetLine = false) (hf : ∀ z, decodeResult op z = some (f z)) (hw : ∀ c ∈ w, continues c = true)
    (hi : s.items = w.map .inByte ++ .inEow :: its) :
    runSteps (w.length + 1) (acceptDecode op s) = .next { runDecode op w f s with items := its } := by
  have hrun := runSteps_decode_front w hw (s := acceptDecode op s) rfl rfl hr hi
  rw [runSteps_add _ _ hrun, runSteps_succ (Transition.consumeEnd (by exact hr) rfl rfl rfl (hf _)).step_eq, runSteps_zero,
    runDecode, decodeAcc_shortRead_count hw]
  simp [decodeAcc, respond, acceptDecode]

/-- An operation on a window is a decode, and its selector is not reserved. -/
theorem decode_of_window {i : Instr} {w : List Byte} (hw : i.operand = .window w) :
    i.operation.dir = .decode ∧ ∃ f : Acc → Value, ∀ z, decodeResult i.selector z = some (f z) := by
  obtain ⟨-, x, hx, -⟩ | ⟨hd, -, f, -, hf, -⟩ := exec_idle i (s := State.reset) rfl
  · rw [hw] at hx
    cases hwd : i.operation.width <;> simp [operandRem, hwd] at hx
  · exact ⟨hd, f, hf⟩

/-- Settles O29: acceptance, then the items up to the end of the decode, which a terminator or `in_eow` brings. -/
theorem streamingDecodeAgrees : Obligations.StreamingDecodeAgrees := by
  intro i w s rest more hw hr hp hq hi
  obtain ⟨hd, f, hf⟩ := decode_of_window hw
  have haccept := (Transition.beginDecode hr hp hq rfl (decodeSelector_selector i) hd rfl).step_eq
  refine ⟨_, exec_decode (by exact hp) hd hw hf, rfl, rfl, ?_⟩
  rw [Nat.add_comm, runSteps_succ haccept]
  -- the items as the decoder meets them: the window's bytes, then its end
  rw [windowItems, List.append_assoc] at hi
  obtain hall | ⟨front, b, tail, rfl, hfront, hb⟩ := shortRead_or_terminated w
  · rw [if_pos (by simpa [shortRead] using hall), runSteps_acceptDecode_shortRead (by exact hr) hf hall (by exact hi), hi]
    simp [List.drop_append]
  · rw [if_neg (by simp [shortRead, hb]), decodeAcc_terminated hfront hb]
    rw [List.map_append, List.map_cons, List.append_assoc] at hi
    rw [runSteps_acceptDecode_terminated (by exact hr) hf hfront hb (by exact hi) tail, hi]
    simp [List.drop_append]

/-! ### What an encode starts from (R64, R102, R126) -/

/-- What an encode sends depends on the value `REM` starts from alone. -/
theorem runEncode_out_congr {x y : Acc} (h : x = y) (op op' : Sel) (s : State) :
    (runEncode op x s).out = (runEncode op' y s).out := by
  rw [runEncode_out, runEncode_out, h]

/-- An unsigned operand may be widened before it is loaded. -/
theorem initialRem_setWidth {w w' : Nat} (v : BitVec w) (h : w ≤ w') :
    initialRem .unsigned (v.setWidth w') = initialRem .unsigned v := by
  apply BitVec.eq_of_toNat_eq
  rw [initialRem, initialRem, widenUnsigned, widenUnsigned, BitVec.toNat_setWidth, BitVec.toNat_setWidth_of_le h,
    BitVec.toNat_setWidth]

/-- A signed operand may be widened before it is loaded. -/
theorem initialRem_signExtend {w w' : Nat} (v : BitVec w) (h : w ≤ w') (hA : w' ≤ Config.accWidth) :
    initialRem .signed (v.signExtend w') = initialRem .signed v := by
  refine congrArg zigzagFwd (BitVec.eq_of_toInt_eq ?_)
  rw [widenSigned, widenSigned, BitVec.toInt_signExtend_of_le hA, BitVec.toInt_signExtend_of_le h,
    BitVec.toInt_signExtend_of_le (h.trans hA)]

/-- The zigzag value of an operand fits the operand's own width, so that an unsigned operand can carry it (R102). -/
theorem initialRem_zigzag {w : Nat} (v : BitVec w) (hw : 1 ≤ w) (hA : w < Config.accWidth) :
    initialRem .signed v = initialRem .unsigned ((zigzagFwd (v.signExtend 128)).setWidth w) := by
  apply BitVec.eq_of_toNat_eq
  have hlt := initialRem_lt .signed v hw hA
  rw [initialRem, widenSigned] at hlt ⊢
  rw [initialRem, widenUnsigned, BitVec.toNat_setWidth_of_le hA.le, BitVec.toNat_setWidth, Nat.mod_eq_of_lt hlt]

/-- Two encodes that start from the same value send the same. -/
theorem exec_encode_sent_alike {i j : Instr} {x y : Acc} {s : State} (hp : s.phase = .idle) (hi : i.operation.dir = .encode)
    (hj : j.operation.dir = .encode) (hx : operandRem i.operation i.operand = some x)
    (hy : operandRem j.operation j.operand = some y) (h : x = y) :
    ∃ t u, exec i s = .next t ∧ exec j s = .next u ∧ t.out = u.out :=
  ⟨_, _, exec_encode hp hi hx, exec_encode hp hj hy, runEncode_out_congr h _ _ s⟩

/-- Settles O54: in each clause `REM` starts from one value. -/
theorem signedEncodeIsUnsignedOfZigzag : Obligations.SignedEncodeIsUnsignedOfZigzag := by
  intro s hp
  refine ⟨fun p => ?_, fun p => ?_, fun p => ?_, fun p => ?_, fun p => ?_, fun p => ?_, fun p => ?_⟩
  · exact exec_encode_sent_alike hp rfl rfl rfl rfl (initialRem_zigzag p (by decide) (by decide))
  · exact exec_encode_sent_alike hp rfl rfl rfl rfl (initialRem_zigzag p (by decide) (by decide))
  · exact exec_encode_sent_alike hp rfl rfl rfl rfl (initialRem_zigzag p (by decide) (by decide))
  · have h32 := initialRem_setWidth p (show 16 ≤ 32 by decide)
    have h64 := initialRem_setWidth p (show 16 ≤ 64 by decide)
    exact ⟨_, _, _, exec_encode hp rfl rfl, exec_encode hp rfl rfl, exec_encode hp rfl rfl,
      runEncode_out_congr h32.symm _ _ s, runEncode_out_congr (h32.trans h64.symm) _ _ s⟩
  · have h32 := initialRem_signExtend p (show 16 ≤ 32 by decide) (by decide)
    have h64 := initialRem_signExtend p (show 16 ≤ 64 by decide) (by decide)
    exact ⟨_, _, _, exec_encode hp rfl rfl, exec_encode hp rfl rfl, exec_encode hp rfl rfl,
      runEncode_out_congr h32.symm _ _ s, runEncode_out_congr (h32.trans h64.symm) _ _ s⟩
  · exact exec_encode_sent_alike hp rfl rfl rfl rfl (initialRem_setWidth p (by decide)).symm
  · exact exec_encode_sent_alike hp rfl rfl rfl rfl (initialRem_signExtend p (by decide) (by decide)).symm

end Sys2Proof.Machine
end

section
/-! PROOFS. The zigzag transform (41_zigzag.md): the two closed forms (R101, R104), what of the accumulator reaches a narrowed
inverse (R105), the inverse law (R106), and the forward transform as a bijection of `S_w` onto `U_w` (R102). -/

namespace Sys2Proof.Machine

/-! ### The closed forms (R101, R104) -/

/-- Settles O48: the double of a value in the range fits the accumulator. -/
theorem zigzagForwardClosedForm : Obligations.ZigzagForwardClosedForm := by
  intro p hlo hhi
  have hpow : (2 : Int) ^ 63 ≤ 2 ^ 126 := by decide
  exact zigzagFwd_value p (by decide) ((neg_le_neg hpow).trans hlo) (hhi.trans_le hpow)

/-- Settles O50: the closed form of the inverse transform, by parity. -/
theorem zigzagInverseClosedForm : Obligations.ZigzagInverseClosedForm := by
  intro z
  have hinv := zigzagInv_value z
  refine ⟨fun heven => ?_, fun hodd => ?_, fun hlt => ?_⟩
  · rwa [if_pos heven] at hinv
  · rwa [if_neg (by omega)] at hinv
  · exact BitVec.toInt_eq_toNat_of_lt (show 2 * z.toNat < 2 ^ 128 by omega)

/-- Below the sign bit the inverse transform halves the unsigned value. -/
theorem zigzagInv_toInt_of_lt {A : Nat} {z : BitVec A} (h : 2 * z.toNat < 2 ^ A) :
    (zigzagInv z).toInt = if z.toNat % 2 = 0 then (z.toNat / 2 : Int) else -((z.toNat + 1) / 2) := by
  have hinv := zigzagInv_value z
  rw [BitVec.toInt_eq_toNat_of_lt h] at hinv
  split at hinv <;> omega

/-! ### What reaches a narrowed inverse (R105) -/

/-- Narrowing keeps the signed value modulo the width. -/
theorem setWidth_eq_ofInt_toInt {A w : Nat} (x : BitVec A) (hw : w ≤ A) : x.setWidth w = BitVec.ofInt w x.toInt :=
  (BitVec.signExtend_eq_setWidth_of_le x hw).symm

/-- Below its top bit a right shift by one does not depend on its kind. -/
theorem ushiftRight_one_setWidth {A w : Nat} (z : BitVec A) (hw : w + 1 ≤ A) :
    (z >>> 1).setWidth w = (z.sshiftRight 1).setWidth w := by
  ext k hk
  simp [BitVec.getLsbD_sshiftRight, show 1 + k < A by omega, show ¬ A ≤ k by omega]

/-- The low `w` bits of the inverse transform are those of the closed form (R104) at the low `w + 1` bits of its argument. -/
theorem zigzagInv_setWidth_value {A w q : Nat} (z : BitVec A) (hw : w + 1 ≤ A) (hq : q = z.toNat % 2 ^ (w + 1)) :
    (zigzagInv z).setWidth w = BitVec.ofInt w (if q % 2 = 0 then q / 2 else -((q + 1) / 2)) := by
  have hlt : q < 2 ^ (w + 1) := hq ▸ Nat.mod_lt _ (Nat.two_pow_pos _)
  have hpow : 2 ^ (w + 2) = 2 * 2 ^ (w + 1) := Nat.pow_succ'
  have hnat : (BitVec.ofNat (w + 2) q).toNat = q := Nat.mod_eq_of_lt (by omega)
  have hlow : z.setWidth (w + 1) = (BitVec.ofNat (w + 2) q).setWidth (w + 1) := by
    apply BitVec.eq_of_toNat_eq
    rw [BitVec.toNat_setWidth, BitVec.toNat_setWidth, hnat, ← hq, Nat.mod_eq_of_lt hlt]
  have hval := zigzagInv_toInt_of_lt (z := BitVec.ofNat (w + 2) q) (by omega)
  rw [zigzagInv_setWidth_congr hw (by omega) hlow, setWidth_eq_ofInt_toInt _ (by omega), hval, hnat]

/-- Settles O51: both shifts agree below the top bit, and the low `w + 1` bits stand for the whole accumulator. -/
theorem inverseLowBitsOnly : Obligations.InverseLowBitsOnly := by
  refine ⟨fun A w z hw => ⟨zigzagInv_setWidth z hw, ?_, fun q hq => ⟨fun heven => ?_, fun hodd => ?_⟩⟩,
    by decide, by decide⟩
  · rw [zigzagInv, BitVec.setWidth_xor, BitVec.setWidth_xor, ushiftRight_one_setWidth z hw]
  · rw [zigzagInv_setWidth_value z hw hq, if_pos heven]
  · rw [zigzagInv_setWidth_value z hw hq, if_neg (by omega)]

/-! ### The inverse law (R106) -/

/-- A wider accumulator keeps the bits of the operand. -/
theorem signExtend_setWidth {w A : Nat} (p : BitVec w) (hw : w ≤ A) : (p.signExtend A).setWidth w = p := by
  rw [setWidth_eq_ofInt_toInt _ hw, BitVec.toInt_signExtend_of_le hw, BitVec.ofInt_toInt]

/-- The zigzag value of an operand lies in `U_w` (R102). -/
theorem zigzagFwd_signExtend_lt {w A : Nat} (v : BitVec w) (hw : w < A) : (zigzagFwd (v.signExtend A)).toNat < 2 ^ w := by
  have hz := zigzagFwd_signExtend v hw
  have hlo := BitVec.le_two_mul_toInt (x := v)
  have hhi := BitVec.two_mul_toInt_lt (x := v)
  rw [← Int.ofNat_lt]
  push_cast
  split at hz <;> omega

/-- The inverse transform undoes the forward one on a widened operand. -/
theorem zigzagInv_zigzagFwd {w A : Nat} (p : BitVec w) (hw : w < A) :
    zigzagInv (zigzagFwd (p.signExtend A)) = p.signExtend A := by
  have hlt := zigzagFwd_signExtend_lt p hw
  have hpow : 2 * 2 ^ w ≤ 2 ^ A := Nat.pow_succ' (m := 2) ▸ Nat.pow_le_pow_right (by decide) hw
  have hz := zigzagFwd_signExtend p hw
  apply BitVec.eq_of_toInt_eq
  rw [zigzagInv_toInt_of_lt (by omega), BitVec.toInt_signExtend_of_le hw.le]
  split at hz <;> split <;> omega

/-- Settles O52: the inverse law, and the operand's own bits under it. -/
theorem zigzagInverseLaw : Obligations.ZigzagInverseLaw := by
  intro w A p hw
  have hinv := zigzagInv_zigzagFwd p hw
  exact ⟨hinv, by rw [hinv, signExtend_setWidth p hw.le]⟩

/-! ### The bijection (R102) -/

/-- The non-negative operands are those of an even zigzag value. -/
theorem toInt_nonneg_iff_zigzagFwd_even {w A : Nat} (v : BitVec w) (hw : w < A) :
    0 ≤ v.toInt ↔ (zigzagFwd (v.signExtend A)).toNat % 2 = 0 := by
  have hz := zigzagFwd_signExtend v hw
  split at hz <;> omega

/-- Two operands of one zigzag value are the same, by the inverse law (R106). -/
theorem zigzagFwd_signExtend_injective {w A : Nat} (hw : w < A) {v u : BitVec w}
    (h : zigzagFwd (v.signExtend A) = zigzagFwd (u.signExtend A)) : v = u := by
  have hinv := congrArg zigzagInv h
  rw [zigzagInv_zigzagFwd v hw, zigzagInv_zigzagFwd u hw] at hinv
  rw [← signExtend_setWidth v hw.le, hinv, signExtend_setWidth u hw.le]

/-- The signed domain `S_w` (R12). -/
theorem inDomain_signed_iff {w : Width} {x : Int} :
    inDomain .signed w x = true ↔ -2 ^ (w.bits - 1) ≤ x ∧ x < 2 ^ (w.bits - 1) := by
  simp [inDomain]

/-- Every value of `U_w` is the zigzag value of an operand: of its half, or of the complement of its half. -/
theorem exists_zigzagFwd_eq (w : Width) {n : Nat} (hn : n < 2 ^ w.bits) :
    ∃ v : BitVec w.bits, (zigzagFwd (v.signExtend 128)).toNat = n := by
  have hpow : (2 : Int) ^ w.bits = 2 * 2 ^ (w.bits - 1) := by cases w <;> rfl
  have hn' : (n : Int) < 2 ^ w.bits := by exact_mod_cast hn
  by_cases heven : n % 2 = 0
  · have hdom : inDomain .signed w (n / 2) = true := inDomain_signed_iff.mpr (by omega)
    have hz := initialRem_ofInt_signed hdom
    rw [if_pos (by omega)] at hz
    exact ⟨_, Int.ofNat_inj.mp (hz.trans (by omega))⟩
  · have hdom : inDomain .signed w (-((n + 1) / 2)) = true := inDomain_signed_iff.mpr (by omega)
    have hz := initialRem_ofInt_signed hdom
    rw [if_neg (by omega)] at hz
    exact ⟨_, Int.ofNat_inj.mp (hz.trans (by omega))⟩

/-- The transform of the operand alone is the low part of the transform in the accumulator. -/
theorem zigzagFwd_signExtend_setWidth {w A : Nat} (v : BitVec w) (hw : w ≤ A) :
    (zigzagFwd (v.signExtend A)).setWidth w = zigzagFwd v := by
  have hmsb : (v.signExtend A).msb = v.msb := by
    rw [BitVec.msb_eq_toInt, BitVec.msb_eq_toInt, BitVec.toInt_signExtend_of_le hw]
  rw [zigzagFwd_eq, zigzagFwd_eq, hmsb]
  cases v.msb <;> simp [BitVec.setWidth_not hw, BitVec.setWidth_shiftLeft_of_le hw, signExtend_setWidth v hw]

/-- The transform of the operand alone is the transform in the accumulator. -/
theorem setWidth_zigzagFwd {w A : Nat} (v : BitVec w) (hw : w < A) :
    (zigzagFwd v).setWidth A = zigzagFwd (v.signExtend A) := by
  apply BitVec.eq_of_toNat_eq
  rw [← zigzagFwd_signExtend_setWidth v hw.le, BitVec.toNat_setWidth_of_le hw.le, BitVec.toNat_setWidth,
    Nat.mod_eq_of_lt (zigzagFwd_signExtend_lt v hw)]

/-- Settles O49: injective by the inverse law, onto by the halves; the two extremes are closed facts of each width. -/
theorem zigzagBijection : Obligations.ZigzagBijection := by
  intro w
  have hw : w.bits < 128 := width_bits_lt_accWidth w
  refine ⟨fun v => ⟨zigzagFwd_signExtend_lt v hw, toInt_nonneg_iff_zigzagFwd_even v hw⟩,
    fun v u h => zigzagFwd_signExtend_injective hw h, fun n hn => exists_zigzagFwd_eq w hn, ?_, ?_,
    fun v => setWidth_zigzagFwd v hw⟩
  · cases w <;> decide
  · cases w <;> decide

end Sys2Proof.Machine
end

section
/-! PROOFS. The six encode operations (42_encode_ops.md): what each sends and leaves (R120 to R125), how long its encoding can
be, and the rules' corner cases, which are closed facts of `EncodeAcc`. -/

namespace Sys2Proof.Machine

/-- An encode in `Idle` latches its selector, sends the encoding of the value `REM` starts from and is `Idle` again; apart from
`REM`, which it used, every other piece of state is as before. -/
theorem exec_encode_sends {i : Instr} {s : State} {x : Acc} (hp : s.phase = .idle) (hd : i.operation.dir = .encode)
    (hx : operandRem i.operation i.operand = some x) :
    ∃ r, exec i s = .next { s with
      op := i.selector, rem := r, phase := .idle, out := s.out ++ emissions (encodeAcc x) } :=
  ⟨_, exec_encode hp hd hx⟩

/-- What an encode of `w` bits starts from lies in `U_w`, so `n` bytes carry it where their payloads have `w` bits. -/
theorem encodeAcc_initialRem_length {w n : Nat} (g : Sign) (v : BitVec w) (hw : 1 ≤ w) (hA : w < Config.accWidth)
    (hn : w ≤ 7 * n) :
    (initialRem g v).toNat < 2 ^ w ∧
    1 ≤ (encodeAcc (initialRem g v)).length ∧ (encodeAcc (initialRem g v)).length ≤ n := by
  have hlt := initialRem_lt g v hw hA
  have hpow : 2 ^ w ≤ 128 ^ n := (Nat.pow_le_pow_right (by decide) hn).trans_eq (Nat.pow_mul 2 7 n)
  exact ⟨hlt, encodeAcc_length_pos _, (encodeAcc_length_le_iff _ n (by omega)).mpr (hlt.trans_le hpow)⟩

/-- Settles O11: three bytes carry 16 bits. -/
theorem encU16Emits : Obligations.EncU16Emits :=
  ⟨fun _ _ hp => exec_encode_sends hp rfl rfl,
    fun v => (encodeAcc_initialRem_length .unsigned v (by decide) (by decide) (by decide)).2, by decide⟩

/-- Settles O12: the zigzag value lies in `U_16`, and three bytes carry 16 bits. -/
theorem encS16Emits : Obligations.EncS16Emits :=
  ⟨fun _ _ hp => exec_encode_sends hp rfl rfl,
    fun v => encodeAcc_initialRem_length .signed v (by decide) (by decide) (by decide), by decide⟩

/-- Settles O13: five bytes carry 32 bits. -/
theorem encU32Emits : Obligations.EncU32Emits :=
  ⟨fun _ _ hp => exec_encode_sends hp rfl rfl,
    fun v => (encodeAcc_initialRem_length .unsigned v (by decide) (by decide) (by decide)).2, by decide⟩

/-- Settles O14: the zigzag value lies in `U_32`, and five bytes carry 32 bits. -/
theorem encS32Emits : Obligations.EncS32Emits :=
  ⟨fun _ _ hp => exec_encode_sends hp rfl rfl,
    fun v => encodeAcc_initialRem_length .signed v (by decide) (by decide) (by decide), by decide⟩

/-- Settles O15: ten bytes carry 64 bits. -/
theorem encU64Emits : Obligations.EncU64Emits :=
  ⟨fun _ _ hp => exec_encode_sends hp rfl rfl,
    fun v => (encodeAcc_initialRem_length .unsigned v (by decide) (by decide) (by decide)).2, by decide⟩

/-- Settles O16: the zigzag value lies in `U_64`, and ten bytes carry 64 bits. -/
theorem encS64Emits : Obligations.EncS64Emits :=
  ⟨fun _ _ hp => exec_encode_sends hp rfl rfl,
    fun v => encodeAcc_initialRem_length .signed v (by decide) (by decide) (by decide), by decide⟩

end Sys2Proof.Machine
end

section
/-! PROOFS. The six decode operations (43_decode_ops.md): what narrowing makes of an accumulator value (R141), what each
operation delivers and leaves (R142 to R147), and why a signed decode is not the inverse zigzag of an unsigned one (R148). The
rules' corner cases are closed facts of `DecodeAcc` and of the inverse transform. -/

namespace Sys2Proof.Machine

/-! ### Narrowing (R141) -/

/-- The width of a delivered value (R25). -/
def valueWidth : Value → Width
  | .v16 _ => .w16
  | .v32 _ => .w32
  | .v64 _ => .w64

@[simp] theorem valueWidth_valueOf {A : Nat} (w : Width) (z : BitVec A) : valueWidth (valueOf w z) = w := by
  cases w <;> rfl

/-- Read unsigned, a narrowed value is the remainder modulo the width. -/
theorem valueInt_unsigned_valueOf {A : Nat} (w : Width) (z : BitVec A) :
    valueInt .unsigned (valueOf w z) = (z.toNat % 2 ^ w.bits : Nat) := by
  cases w <;> exact congrArg Nat.cast (BitVec.toNat_setWidth _ z)

/-- Read signed, a narrowed value is the two's-complement reading of the low bits. -/
theorem valueInt_signed_valueOf {A : Nat} {w : Width} (z : BitVec A) (hw : w.bits ≤ A) :
    valueInt .signed (valueOf w z) = z.toInt.bmod (2 ^ w.bits) := by
  have hnarrow : (narrow w.bits z).toInt = z.toInt.bmod (2 ^ w.bits) := by
    rw [narrow, setWidth_eq_ofInt_toInt z hw, BitVec.toInt_ofInt]
  cases w <;> exact hnarrow

/-- The width code of a selector that names a width (R67). -/
theorem widthCode_of_selWidth {op : Sel} {w : Width} (h : selWidth op = some w) :
    op.extractLsb' 1 2 = BitVec.ofNat 2 (widthCode w) := by
  revert op
  cases w <;> decide

/-- What `DecodeResult` answers: a value of the width the selector names, narrowed as its signedness bit says. -/
theorem decodeResult_narrows {op : Sel} {z : Acc} {v : Value} (h : decodeResult op z = some v) :
    op.extractLsb' 1 2 = BitVec.ofNat 2 (widthCode (valueWidth v)) ∧
    (op.getLsbD 0 = false → valueInt .unsigned v = (z.toNat % 2 ^ (valueWidth v).bits : Nat)) ∧
    (op.getLsbD 0 = true → valueInt .signed v = (zigzagInv z).toInt.bmod (2 ^ (valueWidth v).bits)) := by
  obtain ⟨w, hw, hv⟩ := Option.map_eq_some_iff.mp h
  have hcode := widthCode_of_selWidth hw
  cases hsign : op.getLsbD 0 with
  | false =>
    obtain rfl : valueOf w z = v := by simpa only [selSign, hsign, Bool.false_eq_true, if_false] using hv
    rw [valueWidth_valueOf]
    exact ⟨hcode, fun _ => valueInt_unsigned_valueOf w z, nofun⟩
  | true =>
    obtain rfl : valueOf w (zigzagInv z) = v := by simpa only [selSign, hsign, if_true] using hv
    rw [valueWidth_valueOf]
    exact ⟨hcode, nofun, fun _ => valueInt_signed_valueOf _ (width_bits_lt_accWidth w).le⟩

/-- `DecodeResult` answers nothing exactly under a reserved selector (R69, R140). -/
theorem decodeResult_none_iff {A : Nat} (op : Sel) (z : BitVec A) :
    decodeResult op z = none ↔ op.extractLsb' 1 2 = 0b11#2 := by
  rw [decodeResult, Option.map_eq_none_iff, ← decodeSelector_none_iff, decodeSelector, Option.map_eq_none_iff]

/-- Settles O53: the three widths are those of the value delivered. -/
theorem narrowingTruncates : Obligations.NarrowingTruncates := by
  intro op z
  refine ⟨fun v h => ?_, fun v h => ?_, fun v h => ?_, decodeResult_none_iff op z⟩ <;>
  · obtain ⟨hcode, hunsigned, hsigned⟩ := decodeResult_narrows h
    exact ⟨hcode, fun h0 => Int.ofNat_inj.mp (hunsigned h0), hsigned⟩

/-! ### What a decode delivers (R142 to R147) -/

/-- A decode in `Idle` latches its selector, delivers `DecodeResult` of the accumulated window and is `Idle` again; apart from
`ACC`, `IDX` and `DSTATE`, which it used, every other piece of state is as before. -/
theorem exec_decode_responds {i : Instr} {w : List Byte} {s : State} {v : Value} (hp : s.phase = .idle)
    (hw : i.operand = .window w) (hv : decodeResult i.selector (decodeAcc 128 w).1 = some v) :
    ∃ z n d, exec i s = .next { s with
      op := i.selector, acc := z, idx := n, dstate := d, phase := .idle, out := s.out ++ [.respond v] } := by
  obtain ⟨hd, f, hf⟩ := decode_of_window hw
  obtain rfl : f (decodeAcc 128 w).1 = v := Option.some.inj ((hf _).symm.trans hv)
  exact ⟨_, _, _, exec_decode hp hd hw hf⟩

/-- Settles O17: unsigned, narrowed to 16 bits. -/
theorem decU16Responds : Obligations.DecU16Responds :=
  ⟨fun _ _ hp => exec_decode_responds hp rfl (decodeResult_operation _ _), by decide⟩

/-- Settles O18: the inverse zigzag of the whole accumulator, narrowed to 16 bits. -/
theorem decS16Responds : Obligations.DecS16Responds :=
  ⟨fun _ _ hp => exec_decode_responds hp rfl (decodeResult_operation _ _), by decide⟩

/-- Settles O19: unsigned, narrowed to 32 bits. -/
theorem decU32Responds : Obligations.DecU32Responds :=
  ⟨fun _ _ hp => exec_decode_responds hp rfl (decodeResult_operation _ _), by decide⟩

/-- Settles O20: the inverse zigzag of the whole accumulator, narrowed to 32 bits. -/
theorem decS32Responds : Obligations.DecS32Responds :=
  ⟨fun _ _ hp => exec_decode_responds hp rfl (decodeResult_operation _ _), by decide⟩

/-- Settles O21: unsigned, narrowed to 64 bits. -/
theorem decU64Responds : Obligations.DecU64Responds :=
  ⟨fun _ _ hp => exec_decode_responds hp rfl (decodeResult_operation _ _), by decide⟩

/-- Settles O22: the inverse zigzag of the whole accumulator, narrowed to 64 bits. -/
theorem decS64Responds : Obligations.DecS64Responds :=
  ⟨fun _ _ hp => exec_decode_responds hp rfl (decodeResult_operation _ _), by decide⟩

/-! ### Signed and unsigned decode (R148) -/

/-- Narrowing and widening again loses nothing of a value that fits the narrow width. -/
theorem setWidth_setWidth_of_lt {A w : Nat} {z : BitVec A} (h : z.toNat < 2 ^ w) : (z.setWidth w).setWidth A = z := by
  apply BitVec.eq_of_toNat_eq
  rw [BitVec.toNat_setWidth, BitVec.toNat_setWidth, Nat.mod_eq_of_lt h, Nat.mod_eq_of_lt z.isLt]

/-- Settles O56: below `2^w` nothing is lost before the inverse zigzag; the window's value is `2^16`, whose bit 16 reaches the
signed result alone. -/
theorem signedDecodeUsesWholeAccumulator : Obligations.SignedDecodeUsesWholeAccumulator := by
  refine ⟨fun w z hz => by rw [setWidth_setWidth_of_lt hz], fun s hp => ?_⟩
  have hunsigned : decodeResult 0b1000#4 (decodeAcc 128 [0x80#8, 0x80#8, 0x04#8]).1 = some (.v16 0x0000#16) := by decide
  have hsigned : decodeResult 0b1001#4 (decodeAcc 128 [0x80#8, 0x80#8, 0x04#8]).1 = some (.v16 0x8000#16) := by decide
  obtain ⟨_, _, _, ht⟩ := exec_decode_responds (i := .decU16 _) hp rfl hunsigned
  obtain ⟨_, _, _, hu⟩ := exec_decode_responds (i := .decS16 _) hp rfl hsigned
  exact ⟨_, _, ht, rfl, hu, rfl⟩

end Sys2Proof.Machine
end

section
/-! PROOFS. Exceptions (60_exceptions.md): no step from the invariant faults (R160), a response is a function of its request
alone (R161), what a refusal leaves (R162), and several instances of the block (R168). -/

namespace Sys2Proof.Machine

/-! ### Responses (R160, R161) -/

theorem emissions_encodeAcc_ne_nil {A : Nat} (x : BitVec A) : emissions (encodeAcc x) ≠ [] := by
  rw [← List.length_pos_iff, emissions_length]
  exact encodeAcc_length_pos x

/-- An operation has one response: what it sends from any idle state, where it is `Idle` again (R20). -/
theorem exists_response (i : Instr) :
    ∃ l : List Output, l ≠ [] ∧ ∀ s, s.phase = .idle → ∃ t, exec i s = .next t ∧ t.phase = .idle ∧ t.out = s.out ++ l := by
  obtain ⟨hd, x, hx, -⟩ | ⟨hd, w, f, hw, hf, -⟩ := exec_idle i (s := State.reset) rfl
  · exact ⟨emissions (encodeAcc x), emissions_encodeAcc_ne_nil x, fun _ hp => ⟨_, exec_encode hp hd hx, rfl, rfl⟩⟩
  · exact ⟨[.respond (f (decodeAcc Config.accWidth w).1)], List.cons_ne_nil _ _,
      fun _ hp => ⟨_, exec_decode hp hd hw hf, rfl, rfl⟩⟩

/-- Settles O35: the one response of the operation. -/
theorem responseFromRequestAlone : Obligations.ResponseFromRequestAlone := by
  intro i s₁ s₂ hp₁ hp₂
  obtain ⟨l, -, hsends⟩ := exists_response i
  obtain ⟨t₁, he₁, -, ho₁⟩ := hsends s₁ hp₁
  obtain ⟨t₂, he₂, -, ho₂⟩ := hsends s₂ hp₂
  exact ⟨t₁, t₂, l, he₁, he₂, ho₁, ho₂⟩

/-- The invariant excludes what a busy step can fault on: a decode that has terminated and a reserved selector. -/
theorem Inv.step_ne_fault {s : State} (hs : Inv s) (f : Fault) : step s ≠ .fault f := by
  intro h
  cases hr : s.resetLine with
  | true => cases (step_reset hr).symm.trans h
  | false =>
    cases hp : s.phase with
    | idle => exact serve_no_fault hp f ((step_idle hr hp).symm.trans h)
    | enc =>
      rw [step_enc hr hp, encStep_enc hp] at h
      split at h <;> cases h
    | dec =>
      obtain ⟨-, hdec, -⟩ := hs
      obtain ⟨⟨o, ho, -⟩, hreading, -⟩ := hdec hp
      have hadmitted : s.op.extractLsb' 1 2 ≠ 0b11#2 :=
        fun hreserved => by cases ho.symm.trans ((decodeSelector_none_iff s.op).mpr hreserved)
      obtain ⟨t, ht⟩ := decPhase_total hp hreading hadmitted
      cases ((step_dec hr hp).trans ht).symm.trans h

/-- Settles O24: every operation has a response, and the invariant excludes every fault. -/
theorem noException : Obligations.NoException := by
  refine ⟨fun i s hp => ?_, fun s hs => hs.step_ne_fault⟩
  obtain ⟨l, hl, hsends⟩ := exists_response i
  obtain ⟨t, he, hidle, ho⟩ := hsends s hp
  exact ⟨t, l, he, hidle, hl, ho⟩

/-! ### Refusals (R162) -/

/-- Only a request presented to an idle block is refused. -/
theorem step_refused {s : State} {why : Refusal} (h : step s = .refused why) : s.phase = .idle ∧ s.requests ≠ [] := by
  cases hr : s.resetLine with
  | true => cases (step_reset hr).symm.trans h
  | false =>
    have hp : s.phase = .idle := by
      by_contra hbusy
      obtain ⟨t, h'⟩ | h' | h' := step_busy_outcome hbusy hr <;> cases h'.symm.trans h
    exact ⟨hp, fun hq => by cases (Transition.idleWait hr hp hq).step_eq.symm.trans h⟩

/-- Settles O9: a step keeps the mark, and a refusal sets it. -/
theorem refusalMarkKept : Obligations.RefusalMarkKept := by
  refine ⟨fun s why h => ?_, fun s t hmark h => ?_⟩
  · obtain ⟨hp, hq⟩ := step_refused h
    exact ⟨hp, hq, proceed_refused h⟩
  · obtain hn | ⟨why, -, rfl⟩ := proceed_cases h
    · exact (step_next_iff.mp hn).refusalMark_eq.trans hmark
    · exact afterRefusal_refusalMark s

/-! ### Several instances (R168) -/

/-- A run goes on from every state of the invariant (R160, R162). -/
theorem Inv.exists_proceed {s : State} (hs : Inv s) : ∃ t, proceed s = some t := by
  cases h : step s with
  | next t => exact ⟨t, proceed_next h⟩
  | refused why => exact ⟨_, proceed_refused h⟩
  | fault f => exact absurd h (hs.step_ne_fault f)

/-- Stepping one instance replaces that place of the list alone. -/
theorem stepInstance_frame {k : Nat} {bs cs : List State} (h : stepInstance k bs = some cs) :
    cs.length = bs.length ∧ ∀ j, j ≠ k → cs[j]? = bs[j]? := by
  obtain ⟨s, t, -, -, rfl⟩ := stepInstance_cases h
  exact ⟨List.length_set, fun j hjk => List.getElem?_set_ne hjk.symm⟩

/-- Two instances stepped one after the other: each goes on from its own state in the list as it stood before both. -/
theorem stepInstance_bind {j k : Nat} (h : j ≠ k) (bs : List State) :
    (stepInstance j bs).bind (stepInstance k) =
      (bs[j]?.bind proceed).bind fun t => (bs[k]?.bind proceed).map fun u => (bs.set j t).set k u := by
  rw [stepInstance, Option.bind_map]
  refine congrArg (Option.bind _) (funext fun t => ?_)
  rw [Function.comp_apply, stepInstance, List.getElem?_set_ne h]

theorem stepInstance_comm {j k : Nat} (h : j ≠ k) (bs : List State) :
    (stepInstance j bs).bind (stepInstance k) = (stepInstance k bs).bind (stepInstance j) := by
  rw [stepInstance_bind h, stepInstance_bind h.symm]
  cases bs[j]?.bind proceed with
  | none => cases bs[k]?.bind proceed <;> rfl
  | some t =>
    cases bs[k]?.bind proceed with
    | none => rfl
    | some u => exact congrArg some (List.set_comm t u h)

/-- Settles O37: each clause from what stepping an instance writes, and two instances are two places of the list. -/
theorem instancesIndependent : Obligations.InstancesIndependent := by
  refine ⟨fun k bs s hk => ⟨fun t h => ?_, fun why h => ?_, fun hs => ?_⟩, fun k bs cs h => stepInstance_frame h,
    fun j k bs h => stepInstance_comm h bs⟩
  · exact stepInstance_some hk (proceed_next h)
  · exact stepInstance_some hk (proceed_refused h)
  · obtain ⟨t, ht⟩ := hs.exists_proceed
    exact ⟨_, stepInstance_some hk ht⟩

end Sys2Proof.Machine
end

section
/-! PROOFS. Reset and hazards (70_reset_and_hazards.md): the state right after reset (R180), what acceptance writes (R181), and
a decode that waits for its items (R186). -/

namespace Sys2Proof.Machine

/-! ### Reset (R180) -/

/-- Settles O33: the block is idle and has sent nothing. -/
theorem resetMeetsInvariant : Obligations.ResetMeetsInvariant :=
  inv_of_idle rfl fun _ _ hmem => absurd hmem List.not_mem_nil

/-- The mark of an abandoned operation stays for the rest of the run (R180, R191). -/
theorem proceed_keeps_abandoned {s t : State} (hs : s.abandoned = true) (h : proceed s = some t) : t.abandoned = true := by
  obtain hn | ⟨why, -, rfl⟩ := proceed_cases h
  · rw [(step_next_iff.mp hn).abandoned_eq, hs, Bool.true_or]
  · exact (afterRefusal_abandoned s).trans hs

theorem not_ended_of_abandoned {s : State} (h : s.abandoned = true) : ¬ Ended s :=
  fun ⟨_, _, hnone⟩ => by cases h.symm.trans hnone

/-- Settles O31: a reset comes before any other step, and the mark it leaves is never taken back. -/
theorem resetAbandons : Obligations.ResetAbandons := by
  refine ⟨rfl, fun s hr => step_reset hr, fun s t hs h => ?_⟩
  have hmark := proceed_keeps_abandoned hs h
  exact ⟨hmark, not_ended_of_abandoned hmark⟩

/-! ### Acceptance (R181) -/

theorem step_acceptEncode {s : State} {op : Sel} {x : Operand} {rest : List Request} {o : Operation} {z : Acc}
    (hr : s.resetLine = false) (hp : s.phase = .idle) (hq : s.requests = ⟨.streaming, op, x⟩ :: rest)
    (ho : decodeSelector op = some o) (hd : o.dir = .encode) (hx : operandRem o x = some z) :
    step s = .next { s with requests := rest, op := op, rem := z, phase := .enc } :=
  (Transition.beginEncode hr hp hq rfl ho hd hx).step_eq

/-- An admitted selector with `DIR = 1` names a decode (R66, R69). -/
theorem decodeSelector_decode {op : Sel} (hdir : op.getLsbD 3 = true) (hwid : op.extractLsb' 1 2 ≠ 0b11#2) :
    ∃ o, decodeSelector op = some o ∧ o.dir = .decode := by
  obtain ⟨o, ho⟩ := Option.ne_none_iff_exists'.mp (mt (decodeSelector_none_iff op).mp hwid)
  exact ⟨o, ho, (decodeSelector_dir ho).mpr hdir⟩

/-- Settles O6: a reserved selector is refused as in O7; the other clauses are the two kinds of acceptance, the encodes told
apart by what their operand widens to. -/
theorem acceptWritesStart : Obligations.AcceptWritesStart := by
  intro s op x rest hr hp hq
  refine ⟨fun hres => (reservedSelectorRefused s _ op x rest hr hp hq hres).2, ?_, ?_, ?_, ?_, ?_, ?_, ?decode⟩
  case decode =>
    intro hdir hwid hx
    obtain ⟨o, ho, hd⟩ := decodeSelector_decode hdir hwid
    exact (Transition.beginDecode hr hp hq rfl ho hd hx).step_eq
  -- the six encodes
  all_goals
    rintro v rfl rfl
    exact step_acceptEncode hr hp hq rfl rfl rfl

/-! ### The wait of a decode (R186) -/

/-- A state that a step answers with itself is held for any number of steps. -/
theorem runSteps_of_step_self {s : State} (h : step s = .next s) (k : Nat) : runSteps k s = .next s := by
  induction k with
  | zero => exact runSteps_zero s
  | succ k ih => exact (runSteps_succ h k).trans ih

/-- What ends a decode in progress: a terminator byte or `in_eow`. -/
theorem Transition.decode_ends {s t : State} (h : Transition s t) (hp : s.phase = .dec) (hr : s.resetLine = false)
    (ht : t.phase ≠ .dec) : ∃ rest, s.items = .inEow :: rest ∨ ∃ b, s.items = .inByte b :: rest ∧ continues b = false := by
  cases h with
  | reset hr' => cases hr'.symm.trans hr
  | idleWait _ hp' | wholeEncode _ hp' | wholeDecode _ hp' | beginEncode _ hp' | beginDecode _ hp' | emitMore _ hp'
  | emitLast _ hp' => cases hp'.symm.trans hp
  | decodeWait | consumeMore => exact absurd hp ht
  | consumeLast _ _ _ hi hc => exact ⟨_, .inr ⟨_, hi, hc⟩⟩
  | consumeEnd _ _ _ hi => exact ⟨_, .inl hi⟩

/-- Settles O27: a decode with nothing offered answers its own state, and of its other transitions two leave `Dec`. -/
theorem decodeWaitsForItem : Obligations.DecodeWaitsForItem := by
  refine ⟨fun s k hp hd hr hi => ?_, fun s t hp hr h ht => (step_next_iff.mp h).decode_ends hp hr ht⟩
  exact runSteps_of_step_self (Transition.decodeWait hr hp hd hi).step_eq k

end Sys2Proof.Machine
end

section
/-! PROOFS. The twelve operations together (10_state.md; 42_encode_ops.md and 43_decode_ops.md, laws): their frame, which values
encode to one byte (R127), the round trip of an operand (R150), and which bits of the accumulator and which bytes of the window
reach a result (R151). -/

namespace Sys2Proof.Machine

/-! ### The round trip of an operand (R150) -/

/-- An encode sends one whole response, the bytes of the encoding. -/
theorem responses_runEncode (op : Sel) (x : Acc) (s : State) :
    responses ((runEncode op x s).out.drop s.out.length) = [.bytesOut (encodeAcc x)] := by
  rw [runEncode_out, List.drop_left]
  simpa [responses, collect] using collect_emissions [] (encodeAcc x) (encodeAcc_ne_nil x) []

/-- The answer of a decode to the value that `REM` was loaded with is the operand (R64, R106). -/
theorem decodeResult_initialRem (d : Dir) (w : Width) (g : Sign) (v : BitVec w.bits) :
    decodeResult (encodeSelector ⟨d, w, g⟩) (initialRem g v) = some (valueOf w v) := by
  have hw := width_bits_lt_accWidth w
  rw [decodeResult_operation]
  cases g with
  | unsigned =>
    refine congrArg some (valueOf_congr w ?_)
    rw [initialRem, widenUnsigned, BitVec.setWidth_setWidth_of_le _ hw.le]
  | signed =>
    refine congrArg some (valueOf_congr w ?_)
    rw [initialRem, widenSigned, zigzagInv_zigzagFwd v hw, signExtend_setWidth v hw.le, BitVec.setWidth_eq]

/-- A decode after an encode, with anything after the encoding, answers `DecodeResult` of the value the encode started from: the
codec's round trip (R90) at the level of the operations. -/
theorem exec_decode_after_encode {i : Instr} {dec : List Byte → Instr} {x : Acc} {v : Value} {s : State} (tail : List Byte)
    (hp : s.phase = .idle) (hd : i.operation.dir = .encode) (hx : operandRem i.operation i.operand = some x)
    (hw : ∀ w, (dec w).operand = .window w) (hv : ∀ w, decodeResult (dec w).selector x = some v) :
    ∃ (t u : State) (bs : List Byte), exec i s = .next t ∧ responses (t.out.drop s.out.length) = [.bytesOut bs] ∧
      exec (dec (bs ++ tail)) t = .next u ∧ u.out = t.out ++ [.respond v] := by
  have hvalue : (decodeAcc 128 (encodeAcc x ++ tail)).1 = x := congrArg Prod.fst (codecRoundTrip 128 x tail)
  obtain ⟨_, _, _, hu⟩ := exec_decode_responds (runEncode_phase i.selector x s) (hw (encodeAcc x ++ tail)) (hvalue ▸ hv _)
  exact ⟨_, _, _, exec_encode hp hd hx, responses_runEncode i.selector x s, hu, rfl⟩

/-- Settles O58: the decode meets the value the encode started from, and its answer to that value is the operand. -/
theorem operationRoundTrip : Obligations.OperationRoundTrip := by
  intro s tail hp
  refine ⟨fun p => ?_, fun p => ?_, fun p => ?_, fun p => ?_, fun p => ?_, fun p => ?_⟩
  · exact exec_decode_after_encode tail hp rfl rfl (fun _ => rfl) fun _ => decodeResult_initialRem .decode .w16 .unsigned p
  · exact exec_decode_after_encode tail hp rfl rfl (fun _ => rfl) fun _ => decodeResult_initialRem .decode .w16 .signed p
  · exact exec_decode_after_encode tail hp rfl rfl (fun _ => rfl) fun _ => decodeResult_initialRem .decode .w32 .unsigned p
  · exact exec_decode_after_encode tail hp rfl rfl (fun _ => rfl) fun _ => decodeResult_initialRem .decode .w32 .signed p
  · exact exec_decode_after_encode tail hp rfl rfl (fun _ => rfl) fun _ => decodeResult_initialRem .decode .w64 .unsigned p
  · exact exec_decode_after_encode tail hp rfl rfl (fun _ => rfl) fun _ => decodeResult_initialRem .decode .w64 .signed p

/-! ### The frame of the operations -/

/-- Settles O23: a whole encode writes `REM` as its last step leaves it, a whole decode the three registers of the decoder. -/
theorem operationFrame : Obligations.OperationFrame := by
  intro i s t hp h
  obtain ⟨hd, x, hx, he⟩ | ⟨hd, w, f, hw, -, he⟩ := exec_idle i hp
  · obtain rfl : runEncode i.selector x s = t := Host.Outcome.next.inj (he.symm.trans h)
    refine ⟨rfl, rfl, rfl, rfl, rfl, rfl, rfl, fun _ => ⟨rfl, rfl, rfl, x, hx, ?_⟩, fun hd' => ?_⟩
    · exact encodeRest_eq _ x (encodeFuel_enough x)
    · cases hd.symm.trans hd'
  · obtain rfl : runDecode i.selector w f s = t := Host.Outcome.next.inj (he.symm.trans h)
    refine ⟨rfl, rfl, rfl, rfl, rfl, rfl, rfl, fun hd' => ?_, fun _ => ⟨rfl, rfl, w, hw, rfl, rfl⟩⟩
    cases hd.symm.trans hd'

/-! ### One-byte encodings (R127) -/

theorem encodeAcc_length_eq_one_iff {A : Nat} (x : BitVec A) : (encodeAcc x).length = 1 ↔ x.toNat < 128 := by
  rw [encodeAcc_length_eq_iff x le_rfl]
  omega

/-- The signed operands whose zigzag value is below 128 (R101). -/
theorem zigzagFwd_signExtend_lt_128_iff {w A : Nat} (v : BitVec w) (hw : w < A) :
    (zigzagFwd (v.signExtend A)).toNat < 128 ↔ -64 ≤ v.toInt ∧ v.toInt ≤ 63 := by
  have hz := zigzagFwd_signExtend v hw
  split at hz <;> omega

/-- Settles O55: one byte carries the values below 128, and a greater value is encoded at least as long. -/
theorem oneByteEncodings : Obligations.OneByteEncodings := by
  refine ⟨fun w v => ⟨?_, ?_, fun u h => encodeAcc_length_mono h⟩, by decide⟩
  · rw [encodeAcc_length_eq_one_iff, BitVec.toNat_setWidth_of_le (width_bits_lt_accWidth w).le]
  · rw [encodeAcc_length_eq_one_iff, zigzagFwd_signExtend_lt_128_iff v (width_bits_lt_accWidth w)]

/-! ### What reaches a result (R151) -/

/-- An unsigned answer comes from the low `w` bits of the accumulator alone. -/
theorem decodeResult_congr_of_unsigned {A B : Nat} {z : BitVec A} {z' : BitVec B} {op : Sel} {w : Width}
    (hw : selWidth op = some w) (hsign : op.getLsbD 0 = false) (h : z.setWidth w.bits = z'.setWidth w.bits) :
    decodeResult op z = decodeResult op z' := by
  have hunsigned : selSign op = .unsigned := by simp only [selSign, hsign, Bool.false_eq_true, if_false]
  simp only [decodeResult, hw, hunsigned, Option.map_some, valueOf_congr w h]

/-- The decode loop at index `i` leaves every bit below `7 * i`. -/
theorem decodeLoop_low {A : Nat} (s : List Byte) : ∀ (acc : BitVec A) (i n : Nat), n ≤ 7 * i →
    (decodeLoop s acc i).1.setWidth n = acc.setWidth n := by
  induction s with
  | nil => intro acc i n _; rfl
  | cons b s ih =>
    intro acc i n h
    cases hb : continues b with
    | true => rw [decodeLoop_continue hb, ih _ _ _ (by omega), accumulate_low acc i b n h]
    | false => rw [decodeLoop_stop hb, accumulate_low acc i b n h]

/-- What follows a run of continuation bytes leaves the bits that their payloads fill. -/
theorem decodeAcc_append_low {A n : Nat} {front : List Byte} (hfront : ∀ b ∈ front, continues b = true)
    (hn : n ≤ 7 * front.length) (rest : List Byte) :
    (decodeAcc A (front ++ rest)).1.setWidth n = (decodeAcc A front).1.setWidth n := by
  rw [decodeAcc, decodeLoop_append front hfront, Nat.zero_add]
  exact decodeLoop_low rest _ _ _ hn

/-- Settles O59: the low bits that a result comes from are filled by the continuation bytes. -/
theorem resultBits : Obligations.ResultBits := by
  intro op w hw
  have hA : w.bits + 1 ≤ 128 := width_bits_lt_accWidth w
  refine ⟨fun z z' hsign => decodeResult_congr_of_unsigned hw hsign, fun z z' => decodeResult_congr hw hA hA,
    fun front rest hfront hlen => ?_⟩
  exact decodeResult_congr hw hA hA (decodeAcc_append_low hfront hlen rest)

end Sys2Proof.Machine
end
